-- ==== Sys2Proof/Word.lean ====
section
/-! DEFINITION. The value types of the spec (00_scope.md section 5, 10_state.md section 4): bytes, packets,
32-bit words, INT256 integers and the 254-bit bank scalar. Types and nothing else. -/

namespace Sys2Proof

/-- A byte, an integer in `[0, 255]` (R13). -/
abbrev Byte := BitVec 8

/-- A byte string; `s[0]` is the first byte, the one sent first (R13). -/
abbrev Bytes := List Byte

/-- A packet of the command port or of the response port: a finite byte string with its length (R60). -/
abbrev Packet := Bytes

/-- A word of the hash, an integer in `[0, 2^32)` (R16). Its `+` is the spec's `+32`: it wraps, and the carry
out of bit 31 is dropped (R124). -/
abbrev Word := BitVec 32

/-- INT256, the type of every integer operand and result in a packet: an integer in `[0, 2^256)` (R33). It is
wider than every bound a command checks, so that a value out of bound can be sent and rejected. -/
abbrev Int256 := BitVec 256

/-- A scalar: an integer in `[0, 2^254)`, exactly 254 bits (R21, `90_conflicts.md` C2). -/
abbrev Bank := BitVec 254

end Sys2Proof
end

