-- ==== Sys2Proof/Syntax.lean ====
section
/-! DEFINITION. The commands of the block and the structured values they carry: one constructor of `Instr` per
row of spec/opcode_table.json (R66), with the operands of that row's format (R62). -/

namespace Sys2Proof

/-- A byte string of exactly 32 bytes: a digest (R28) or a codec instance (R32), which are the same thing. The
check that makes an instance self-validating at construction is its second field. -/
structure Bytes32 where
  bytes : Bytes
  size  : bytes.length = 32
  deriving DecidableEq, Repr

/-- CompressionState: 8 lanes of 32 bits, `st[0]` to `st[7]`, called `a` to `h` in that order (R29). -/
structure CompressionState where
  a : Word
  b : Word
  c : Word
  d : Word
  e : Word
  f : Word
  g : Word
  h : Word
  deriving DecidableEq, Repr

/-- RoundWitness: the data that replays the omitted round and the chaining step, 18 words (R30). -/
structure RoundWitness where
  /-- penultimateState, after 63 of the 64 rounds of the last block -/
  pen  : CompressionState
  /-- initialState, the chaining state entering the last block -/
  init : CompressionState
  /-- messageWord, the schedule word of the omitted round -/
  mw   : Word
  /-- roundConstant, the constant of the omitted round -/
  rc   : Word
  deriving DecidableEq, Repr

/-- The fourteen commands (R66). An integer operand is any INT256: its bound is checked by the command's own
rule and not by the decoder (R63). -/
inductive Instr where
  /-- HS.SPLIT `msg`, opcode 0x10, format M (R104) -/
  | hsSplit (msg : Bytes)
  /-- FRV.VERIFY `witness`, `claimed`, opcode 0x20, format WD (R125) -/
  | frvVerify (witness : RoundWitness) (claimed : Bytes32)
  /-- CC.FROMLIMBS `high`, `low`, opcode 0x30, format II (R140) -/
  | ccFromLimbs (high low : Int256)
  /-- CC.TOLIMBS `inst`, opcode 0x31, format B (R141) -/
  | ccToLimbs (inst : Bytes32)
  /-- CC.FROMPOINT `x`, `y`, opcode 0x32, format II (R142) -/
  | ccFromPoint (x y : Int256)
  /-- CC.TOPOINT `bx`, `by`, opcode 0x33, format BB (R143) -/
  | ccToPoint (bx byy : Bytes32)
  /-- SCB.LOAD `v`, opcode 0x40, format I (R168) -/
  | scbLoad (v : Int256)
  /-- SCB.STORE, opcode 0x41, format N (R169) -/
  | scbStore
  /-- SCB.GET `id`, opcode 0x42, format I (R170) -/
  | scbGet (id : Int256)
  /-- SCB.SET `id`, `newValue`, opcode 0x43, format II (R171) -/
  | scbSet (id newValue : Int256)
  /-- SCB.INC `id`, opcode 0x44, format I (R172) -/
  | scbInc (id : Int256)
  /-- SCB.ISFULL `id`, opcode 0x45, format I (R173) -/
  | scbIsFull (id : Int256)
  /-- SCB.TOTAL, opcode 0x46, format N (R174) -/
  | scbTotal
  /-- SCB.FINDMAX, opcode 0x47, format N (R175) -/
  | scbFindMax
  deriving DecidableEq, Repr

/-- The four units of the block (R2). -/
inductive HwUnit where
  | hsw | frv | cc | scb
  deriving DecidableEq, Repr

/-- The two trust domains (R207): where a unit is meant to run and what its output is worth. The hardware
enforces neither and no state says which is active (R208). -/
inductive TrustDomain where
  /-- the off-environment prepare phase: the output is a claim -/
  | outside
  /-- the constrained environment: a failure is an unsatisfiable constraint system -/
  | constrained
  deriving DecidableEq, Repr

end Sys2Proof
end

