-- ==== Sys2Proof/Machine/Bytes.lean ====
section
/-! DEFINITION. Byte order: `BE` and `fold` of R14 and R15, and the byte forms of the structured values. Every
multi-byte quantity the block serialises is big-endian, and the order cannot be switched (R43). -/

namespace Sys2Proof.Machine

/-- `BE(n, v)`: byte `k` is `floor(v / 256^(n-1-k)) mod 256`, most significant first (R14). -/
def be : Nat → Nat → Bytes
  | 0, _ => []
  | n + 1, v => BitVec.ofNat 8 (v / 256 ^ n) :: be n v

/-- `fold(s)`, the exact big-endian base-256 decode of a byte string (R15). -/
def fold (s : Bytes) : Nat :=
  s.foldl (fun value nextByte => value * 256 + nextByte.toNat) 0

@[simp] theorem be_length (n v : Nat) : (be n v).length = n := by
  induction n with
  | zero => rfl
  | succ n ih => simp [be, ih]

/-- The lanes `st[0]` to `st[7]` in order (R29). -/
def lanes (st : CompressionState) : List Word :=
  [st.a, st.b, st.c, st.d, st.e, st.f, st.g, st.h]

/-- A CompressionState as 32 bytes: lane 0 first, each lane `BE(4, ·)` (R44). -/
def stateBytes (st : CompressionState) : Bytes :=
  (lanes st).flatMap fun w => be 4 w.toNat

/-- The 72 bytes of a RoundWitness: `pen`, `init`, `mw`, `rc` (R64). -/
def witnessBytes (w : RoundWitness) : Bytes :=
  stateBytes w.pen ++ stateBytes w.init ++ be 4 w.mw.toNat ++ be 4 w.rc.toNat

/-- The byte form of an INT256 field, `BE(32, v)` (R47). -/
def intField (v : Nat) : Bytes := be 32 v

/-- The byte form of a boolean result: 0x01 true, 0x00 false (R71). -/
def boolField (b : Bool) : Bytes := [if b then 0x01 else 0x00]

@[simp] theorem stateBytes_length (st : CompressionState) : (stateBytes st).length = 32 := by
  simp [stateBytes, lanes]

@[simp] theorem witnessBytes_length (w : RoundWitness) : (witnessBytes w).length = 72 := by
  simp [witnessBytes]

@[simp] theorem intField_length (v : Nat) : (intField v).length = 32 := be_length 32 v

@[simp] theorem boolField_length (b : Bool) : (boolField b).length = 1 := rfl

/-- The 32 bytes of an integer as a codec instance, `BE(32, v)` (R138). -/
def be32 (v : Nat) : Bytes32 := ⟨be 32 v, be_length 32 v⟩

/-- The digest a CompressionState serialises to (R44, R103). -/
def stateDigest (st : CompressionState) : Bytes32 := ⟨stateBytes st, stateBytes_length st⟩

end Sys2Proof.Machine
end

