-- ==== Sys2Proof/Machine/Operands.lean ====
section
/-! DEFINITION. The operand forms: how each field of a command format (R62) is read from the operand bytes of a
packet. No reader rejects anything: every pattern of a field is legal (R63, R64, R65); the packet's length is
checked by the decoder before a field is cut. -/

namespace Sys2Proof.Machine

/-- `s[i : j]`, the bytes `s[i]` up to and including `s[j-1]` (R13). -/
def slice (s : Bytes) (i j : Nat) : Bytes := (s.take j).drop i

theorem slice_length (s : Bytes) (i j : Nat) (h : j ≤ s.length) : (slice s i j).length = j - i := by
  simp [slice, Nat.min_eq_left h]

/-- An INT256 field: `fold` of its 32 bytes (R63). -/
def intOf (f : Bytes) : Int256 := BitVec.ofNat 256 (fold f)

/-- Word `i` of a byte string: `fold(s[4i : 4i+4])` (R45, R64). -/
def wordAt (s : Bytes) (i : Nat) : Word := BitVec.ofNat 32 (fold (slice s (4 * i) (4 * i + 4)))

/-- The eight lanes from word `k` of a byte string on, lane 0 first (R44, R64). -/
def stateAt (s : Bytes) (k : Nat) : CompressionState :=
  { a := wordAt s k, b := wordAt s (k + 1), c := wordAt s (k + 2), d := wordAt s (k + 3)
    e := wordAt s (k + 4), f := wordAt s (k + 5), g := wordAt s (k + 6), h := wordAt s (k + 7) }

/-- The RoundWitness of 72 bytes: words 0 to 7 are `pen`, 8 to 15 `init`, 16 `mw`, 17 `rc` (R64). -/
def witnessOf (s : Bytes) : RoundWitness :=
  { pen := stateAt s 0, init := stateAt s 8, mw := wordAt s 16, rc := wordAt s 17 }

end Sys2Proof.Machine
end

