-- ==== Sys2Proof/Config.lean ====
section
/-! DEFINITION. What the hardware is built with: the fixed protocol constants of R7, none of them programmable
and none a register (R26), and the one open parameter of the spec, `MAX_MSG_BYTES` (R8). -/

namespace Sys2Proof.Config

/-- ROUNDS, the rounds of the compression function (R7). -/
def rounds : Nat := 64
/-- BLOCK_BYTES, the block size of the hash (R7). -/
def blockBytes : Nat := 64
/-- LEN_TRAILER_BITS, the width of the bit-length trailer (R7). -/
def lenTrailerBits : Nat := 64
/-- DIGEST_BYTES, the length of a digest and of a codec instance (R7, R32). -/
def digestBytes : Nat := 32
/-- LIMB_BITS: a limb is below `2^128` (R7). -/
def limbBits : Nat := 128
/-- NUM_COUNTERS, the counters of the bank (R7). -/
def numCounters : Nat := 25
/-- COUNTER_BITS, the bits of one counter (R7). -/
def counterBits : Nat := 10
/-- COUNTER_MAX, the largest counter value (R7). -/
def counterMax : Nat := 1023
/-- BANK_USED_BITS, the bits the counters occupy (R7). -/
def bankUsedBits : Nat := 250
/-- SCALAR_BITS, the width of a scalar and of the register BANK (R7). -/
def scalarBits : Nat := 254
/-- INT_BYTES, the bytes of an integer field in a packet (R7). -/
def intBytes : Nat := 32

/-- The message length, in bytes, from which the bit length no longer fits the 64-bit trailer (R91): no
message of this length or more has a meaning (`90_conflicts.md` C4). -/
def trailerLimit : Nat := 2 ^ 61

/-- The open parameter MAX_MSG_BYTES as an unknown element of `[0, 2^61 - 1]` (R8, decision D10). It has no
body: a claim that holds of the model holds for every value of the parameter (assumption log entry 1). -/
opaque maxMsg : Fin (2 ^ 61)

/-- MAX_MSG_BYTES, the largest message length in bytes that HS.SPLIT accepts (R8). -/
def maxMsgBytes : Nat := maxMsg.val

end Sys2Proof.Config
end

