-- ==== Sys2Proof/WellFormed.lean ====
section
/-! DEFINITION. Which instructions a packet can carry. Every operand but one is well-formed by its type (an
INT256 is 256 bits wide, R33; an instance is 32 bytes, R32; a witness is 18 words, R30); the message of HS.SPLIT is
the one whose length is checked (R8, R75). -/

namespace Sys2Proof

/-- The instruction is one the encoding admits: a message has at most `MAX_MSG_BYTES` bytes (R8, R104). -/
def Instr.wellFormed : Instr → Bool
  | .hsSplit msg => decide (msg.length ≤ Config.maxMsgBytes)
  | .frvVerify _ _ => true
  | .ccFromLimbs _ _ => true
  | .ccToLimbs _ => true
  | .ccFromPoint _ _ => true
  | .ccToPoint _ _ => true
  | .scbLoad _ => true
  | .scbStore => true
  | .scbGet _ => true
  | .scbSet _ _ => true
  | .scbInc _ => true
  | .scbIsFull _ => true
  | .scbTotal => true
  | .scbFindMax => true

/-- `Instr.wellFormed` as a proposition. -/
abbrev Instr.WellFormed (i : Instr) : Prop := i.wellFormed = true

end Sys2Proof
end

