-- ==== Sys2Proof/Decode.lean ====
section
/-! DEFINITION. Command packets: the decoder of R67, total on every byte string, rejecting by name, and the
encoder of the same tables (R61 to R66). -/

namespace Sys2Proof

open Machine

/-- Why a packet is not a command (R191, status ILLEGAL; R69). -/
inductive Illegal where
  /-- OPCODE: byte 0 is not one of the fourteen assigned opcodes -/
  | opcode
  /-- LENGTH: the packet is empty, or a fixed-length command has another length, or HS.SPLIT has a message
  longer than `MAX_MSG_BYTES` -/
  | length
  deriving DecidableEq, Repr

/-- Format N: no operands, packet length 1 (R62). -/
def decodeN (i : Instr) (ops : Bytes) : Except Illegal Instr :=
  if ops.length = 0 then .ok i else .error .length

/-- Format I: one INT256, packet length 33 (R62). -/
def decodeI (mk : Int256 → Instr) (ops : Bytes) : Except Illegal Instr :=
  if ops.length = 32 then .ok (mk (intOf ops)) else .error .length

/-- Format II: two INT256, packet length 65 (R62). -/
def decodeII (mk : Int256 → Int256 → Instr) (ops : Bytes) : Except Illegal Instr :=
  if ops.length = 64 then .ok (mk (intOf (slice ops 0 32)) (intOf (slice ops 32 64))) else .error .length

/-- Format B: 32 raw bytes, packet length 33 (R62, R65). -/
def decodeB (mk : Bytes32 → Instr) (ops : Bytes) : Except Illegal Instr :=
  if h : ops.length = 32 then .ok (mk ⟨ops, h⟩) else .error .length

/-- Format BB: twice 32 raw bytes, packet length 65 (R62, R65). -/
def decodeBB (mk : Bytes32 → Bytes32 → Instr) (ops : Bytes) : Except Illegal Instr :=
  if h : ops.length = 64 then
    .ok (mk ⟨slice ops 0 32, slice_length ops 0 32 (by omega)⟩
      ⟨slice ops 32 64, slice_length ops 32 64 (by omega)⟩)
  else .error .length

/-- Format WD: a witness and a claimed digest, packet length 105 (R62, R64). -/
def decodeWD (mk : RoundWitness → Bytes32 → Instr) (ops : Bytes) : Except Illegal Instr :=
  if h : ops.length = 104 then
    .ok (mk (witnessOf (slice ops 0 72)) ⟨slice ops 72 104, slice_length ops 72 104 (by omega)⟩)
  else .error .length

/-- Format M: the message is every byte after the opcode, at most `MAX_MSG_BYTES` of them (R62, R67, R75). -/
def decodeM (mk : Bytes → Instr) (ops : Bytes) : Except Illegal Instr :=
  if Config.maxMsgBytes < ops.length then .error .length else .ok (mk ops)

/-- The opcode map (R66): each assigned opcode with its format; every other value is reserved and is OPCODE
whatever follows it (R69, R76). -/
def decodeCommand (op : Byte) (ops : Bytes) : Except Illegal Instr :=
  match op with
  | 0x10#8 => decodeM .hsSplit ops
  | 0x20#8 => decodeWD .frvVerify ops
  | 0x30#8 => decodeII .ccFromLimbs ops
  | 0x31#8 => decodeB .ccToLimbs ops
  | 0x32#8 => decodeII .ccFromPoint ops
  | 0x33#8 => decodeBB .ccToPoint ops
  | 0x40#8 => decodeI .scbLoad ops
  | 0x41#8 => decodeN .scbStore ops
  | 0x42#8 => decodeI .scbGet ops
  | 0x43#8 => decodeII .scbSet ops
  | 0x44#8 => decodeI .scbInc ops
  | 0x45#8 => decodeI .scbIsFull ops
  | 0x46#8 => decodeN .scbTotal ops
  | 0x47#8 => decodeN .scbFindMax ops
  | _ => .error .opcode

/-- The decoder (R67): the empty packet first, then the opcode, then the length, then the operands. -/
def decode : Packet → Except Illegal Instr
  | [] => .error .length
  | op :: ops => decodeCommand op ops

/-- The opcode of a command (R66). -/
def Instr.opcode : Instr → Byte
  | .hsSplit _ => 0x10
  | .frvVerify _ _ => 0x20
  | .ccFromLimbs _ _ => 0x30
  | .ccToLimbs _ => 0x31
  | .ccFromPoint _ _ => 0x32
  | .ccToPoint _ _ => 0x33
  | .scbLoad _ => 0x40
  | .scbStore => 0x41
  | .scbGet _ => 0x42
  | .scbSet _ _ => 0x43
  | .scbInc _ => 0x44
  | .scbIsFull _ => 0x45
  | .scbTotal => 0x46
  | .scbFindMax => 0x47

/-- The operand bytes of a command, in the order of its format (R61, R62). -/
def Instr.operands : Instr → Bytes
  | .hsSplit msg => msg
  | .frvVerify witness claimed => witnessBytes witness ++ claimed.bytes
  | .ccFromLimbs high low => intField high.toNat ++ intField low.toNat
  | .ccToLimbs inst => inst.bytes
  | .ccFromPoint x y => intField x.toNat ++ intField y.toNat
  | .ccToPoint bx byy => bx.bytes ++ byy.bytes
  | .scbLoad v => intField v.toNat
  | .scbStore => []
  | .scbGet id => intField id.toNat
  | .scbSet id newValue => intField id.toNat ++ intField newValue.toNat
  | .scbInc id => intField id.toNat
  | .scbIsFull id => intField id.toNat
  | .scbTotal => []
  | .scbFindMax => []

/-- The encoder: `opcode ‖ operands`, no padding and no length field (R61). -/
def encode (i : Instr) : Packet := i.opcode :: i.operands

/-- The one legal operand length of a fixed-length opcode, in bytes (R66); `none` for HS.SPLIT, whose length is
the message's (R75), and for an unassigned opcode. -/
def fixedOperandBytes (op : Byte) : Option Nat :=
  match op with
  | 0x20#8 => some 104
  | 0x30#8 => some 64
  | 0x31#8 => some 32
  | 0x32#8 => some 64
  | 0x33#8 => some 64
  | 0x40#8 => some 32
  | 0x41#8 => some 0
  | 0x42#8 => some 32
  | 0x43#8 => some 64
  | 0x44#8 => some 32
  | 0x45#8 => some 32
  | 0x46#8 => some 0
  | 0x47#8 => some 0
  | _ => none

/-- The legal packet length of a command (R66). -/
def Instr.packetLength : Instr → Nat
  | .hsSplit msg => 1 + msg.length
  | .frvVerify _ _ => 105
  | .ccFromLimbs _ _ => 65
  | .ccToLimbs _ => 33
  | .ccFromPoint _ _ => 65
  | .ccToPoint _ _ => 65
  | .scbLoad _ => 33
  | .scbStore => 1
  | .scbGet _ => 33
  | .scbSet _ _ => 65
  | .scbInc _ => 33
  | .scbIsFull _ => 33
  | .scbTotal => 1
  | .scbFindMax => 1

/-- The unit the high four bits of the opcode select (R66). -/
def Instr.unit : Instr → HwUnit
  | .hsSplit _ => .hsw
  | .frvVerify _ _ => .frv
  | .ccFromLimbs _ _ => .cc
  | .ccToLimbs _ => .cc
  | .ccFromPoint _ _ => .cc
  | .ccToPoint _ _ => .cc
  | .scbLoad _ => .scb
  | .scbStore => .scb
  | .scbGet _ => .scb
  | .scbSet _ _ => .scb
  | .scbInc _ => .scb
  | .scbIsFull _ => .scb
  | .scbTotal => .scb
  | .scbFindMax => .scb

/-- The high four bits of the opcodes of a unit (R66). -/
def HwUnit.number : HwUnit → Nat
  | .hsw => 1
  | .frv => 2
  | .cc => 3
  | .scb => 4

/-- The trust domain a unit belongs to (R207). -/
def HwUnit.domain : HwUnit → TrustDomain
  | .hsw => .outside
  | .frv => .constrained
  | .cc => .constrained
  | .scb => .constrained

/-- The bytes of a number whose bit 0 is the least significant bit of the first byte, as
spec/opcode_table.json numbers the bits of a packet. -/
def tableBytes : Nat → Nat → Bytes
  | 0, _ => []
  | n + 1, w => BitVec.ofNat 8 w :: tableBytes n (w / 256)

/-- The packet that `nbits` bits of a table row stand for: the bytes given and, for a fixed-length opcode, zero
bytes up to its length. HS.SPLIT's length is the packet's own, so nothing is added to it (R75; assumption log
entry 5). -/
def tablePacket (nbits w : Nat) : Packet :=
  match tableBytes (nbits / 8) w with
  | [] => []
  | op :: ops => op :: (ops ++ List.replicate ((fixedOperandBytes op).getD 0 - ops.length) 0)

/-- The instruction the decoder reads from a row's bits; `none` where it refuses them. -/
def decodeTableWord (nbits w : Nat) : Option Instr :=
  match decode (tablePacket nbits w) with
  | .ok i => some i
  | .error _ => none

end Sys2Proof
end

