-- ==== Sys2Proof/Machine/State.lean ====
section
/-! DEFINITION. The state of the block and of its two ports, the errors a command can end in, and the state after
reset. `BANK` is the one register the spec gives the machine (R20, R21); the ports hold what the host has still to send and
what the block has answered. -/

namespace Sys2Proof.Machine

/-- What reaches the block from outside, in the order the host sends it (R60, R216). -/
inductive Input where
  /-- a command packet on the command port (R60) -/
  | packet (p : Packet)
  /-- reset, arriving between commands (R215, U15) -/
  | reset
  /-- a command packet during whose execution reset arrives: the command is abandoned and no response is sent
  for it (R216) -/
  | resetDuring (p : Packet)
  deriving DecidableEq, Repr

/-- The errors of R191, one constructor per reachable or named (status, detail) pair. An error is an answer, never a
halt: the block goes on to the next command (R199, R200). -/
inductive Error where
  /-- VALIDATION/LIMB_HIGH: CC.FROMLIMBS with `high >= 2^128` -/
  | limbHigh
  /-- VALIDATION/LIMB_LOW: CC.FROMLIMBS with `high < 2^128` and `low >= 2^128` -/
  | limbLow
  /-- VALIDATION/COUNTER_VALUE: SCB.SET with `newValue > 1023` -/
  | counterValue
  /-- VALIDATION/SATURATED: SCB.INC of a counter at 1023 -/
  | saturated
  /-- VALIDATION/BANK_WIDTH: SCB.LOAD with `v >= 2^254` -/
  | bankWidth
  /-- MISMATCH/DIGEST: FRV.VERIFY whose candidate digest is not the claimed one -/
  | digest
  /-- MISMATCH/SELFCHECK: the self-check of CC.FROMLIMBS, unreachable (R136) -/
  | selfCheck
  /-- RANGE/COUNTER_ID: a counter id above 24 -/
  | counterId
  /-- ILLEGAL: the packet is not a command; raised by the decoder and by nothing else (R194) -/
  | illegal (why : Illegal)
  deriving DecidableEq, Repr

/-- Why the machine stops with a fault: never. Every error of the spec is answered in a response packet and leaves
the block ready for the next command (R199, R200), so there is nothing to construct here. Safe: the model has no
stop that the hardware has not. -/
inductive Fault where
  deriving DecidableEq, Repr

/-- Why an instruction has no meaning. -/
inductive Refusal where
  /-- Raised by an arm of `exec` whose instruction has no meaning yet; no arm of this model is one. Safe: nothing
  can be proved of the run past it. -/
  | notModelled (mnemonic : String)
  /-- Raised by the meaning of HS.SPLIT for a message of `2^61` bytes or more, whose bit length has no 64-bit form:
  the spec does not define the function there (`90_conflicts.md` C4, U4). No packet decodes to such an
  instruction, so no step ends here. Safe: the model claims nothing of such a message. -/
  | beyondTrailer
  deriving DecidableEq, Repr

/-- The state: the register BANK and the two ports. -/
structure State where
  /-- `BANK`, 254 bits: counter `c[i]` is bits `10i+9` to `10i`, the headroom bits 253 to 250 (R21, R22, R23) -/
  bank : Bank
  /-- the command port: what the host sends, the next one first (R60; the model's own field, assumption log
  entry 3) -/
  port : List Input
  /-- the response port: every response given, the first one first (R60, R230; the model's own field,
  assumption log entry 3) -/
  sent : List Packet
  deriving DecidableEq, Repr

/-- Right after reset: `BANK = 0`, no command in progress, no response pending (R36, R215; assumption log
entry 7). The host has sent
nothing yet and the block waits for the first command packet (R217). -/
def State.reset : State := { bank := 0, port := [], sent := [] }

end Sys2Proof.Machine
end

