-- ==== Sys2Proof/Machine/Ops.lean ====
section
/-! DEFINITION. The shared operations: the codes of a response, answering, raising an error (the block's one form of
exception entry, R199; nothing returns from it, R201), the register BANK and its 25 slots, and reset. -/

namespace Sys2Proof.Machine

/-- What a step of the block answers. -/
abbrev Outcome := Host.Outcome State Fault Refusal

/-! ### Codes (R190, R191) -/

/-- The status classes (R190). -/
inductive Status where
  | ok | validation | mismatch | range | illegal
  deriving DecidableEq, Repr

/-- The status code, byte 0 of every response (R190). -/
def statusCode : Status → Byte
  | .ok => 0x00
  | .validation => 0x01
  | .mismatch => 0x02
  | .range => 0x03
  | .illegal => 0x04

/-- The class of an error (R190, R191). -/
def errorStatus : Error → Status
  | .limbHigh => .validation
  | .limbLow => .validation
  | .counterValue => .validation
  | .saturated => .validation
  | .bankWidth => .validation
  | .digest => .mismatch
  | .selfCheck => .mismatch
  | .counterId => .range
  | .illegal _ => .illegal

/-- The detail code, byte 1 of an error response: the cause within the class (R191). -/
def errorDetail : Error → Byte
  | .limbHigh => 0x01
  | .limbLow => 0x02
  | .counterValue => 0x03
  | .saturated => 0x04
  | .bankWidth => 0x05
  | .digest => 0x01
  | .selfCheck => 0x02
  | .counterId => 0x01
  | .illegal .opcode => 0x01
  | .illegal .length => 0x02

/-! ### Responses (R70) -/

/-- The response of a command that succeeds: status OK, detail 0x00, the results (R70). -/
def okResponse (payload : Bytes) : Packet := statusCode .ok :: 0x00 :: payload

/-- The response of a command that fails: exactly the two bytes `status ‖ detail` (R70, R199). -/
def errorResponse (e : Error) : Packet := [statusCode (errorStatus e), errorDetail e]

/-- Gives one response on the response port, after every response already given (R60). -/
def State.give (s : State) (r : Packet) : State := { s with sent := s.sent ++ [r] }

/-- `respond OK(fields)`: ends the command with a success response (R17, R70). -/
def respondOK (payload : Bytes) (s : State) : Outcome := .next (s.give (okResponse payload))

/-- `raise <Error>(detail)`: the command stops, BANK is not written, the response is two bytes and the block is
ready for the next command (R199). Nothing is saved and nothing returns from it (R201). -/
def raise (e : Error) (s : State) : Outcome := .next (s.give (errorResponse e))

/-! ### The register BANK -/

/-- `BANK <- v` (R17). -/
def State.writeBank (s : State) (b : Bank) : State := { s with bank := b }

/-- `slot(bank, i) = floor(bank / 2^(10i)) mod 1024`, the counter `c[i]` (R22, R161). -/
def slot (bank : Bank) (i : Nat) : Nat := bank.toNat / 2 ^ (10 * i) % 1024

/-- `HR = BANK[253:250]`, the headroom (R23). -/
def headroom (bank : Bank) : Nat := bank.toNat / 2 ^ 250 % 16

/-- `c[i] <- v` as R22 writes it: `BANK - c[i] * 2^(10i) + v * 2^(10i)`. The commands write a counter by the scan of
R163 (`scanWrite`); this is the direct form it agrees with (R176). -/
def writeSlot (bank : Bank) (i v : Nat) : Bank :=
  BitVec.ofNat 254 (bank.toNat - slot bank i * 2 ^ (10 * i) + v * 2 ^ (10 * i))

/-! ### The ports -/

/-- The state once the input at the head of the command port has been taken; `rest` is what remains (R60). -/
def State.took (s : State) (rest : List Input) : State := { s with port := rest }

/-- Reset: `BANK <- 0` and nothing else, since there is nothing else to reset (R215). What the host has been given
stays given, and what it has still to send comes after. -/
def State.resetBlock (s : State) : State := s.writeBank 0

/-- The packet `p` put where the next step takes its command: the head of the command port. -/
def State.offer (s : State) (p : Packet) : State := { s with port := .packet p :: s.port }

end Sys2Proof.Machine
end

