-- ==== Sys2Proof/Machine/Cc.lean ====
section
/-! DEFINITION. The CC unit: CC.FROMLIMBS, CC.TOLIMBS, CC.FROMPOINT, CC.TOPOINT (42_commitment_codec.md). All of it
is exact arithmetic on naturals, and a bound is checked on the whole operand (R146). -/

namespace Sys2Proof.Machine

/-- `BE(16, high) ‖ BE(16, low)`, the instance of two limbs (R136). -/
def limbsInstance (high low : Nat) : Bytes32 := ⟨be 16 high ++ be 16 low, by simp⟩

/-- `toLimbs(inst)`: the two halves of the instance, folded (R137). -/
def toLimbs (inst : Bytes32) : Nat × Nat :=
  (fold (slice inst.bytes 0 16), fold (slice inst.bytes 16 32))

/-- `fromLimbs(high, low)`: the two bounds, `high` first, then the concatenation and its self-check (R136). -/
def fromLimbs (high low : Nat) : Except Error Bytes32 :=
  if high ≥ 2 ^ Config.limbBits then .error .limbHigh
  else if low ≥ 2 ^ Config.limbBits then .error .limbLow
  else
    let inst := limbsInstance high low
    if toLimbs inst ≠ (high, low) then .error .selfCheck else .ok inst

/-- `fromPoint(x, y)`: one instance per coordinate (R138). Any two integers below `2^256` are a point (R147). -/
def fromPoint (x y : Nat) : Bytes32 × Bytes32 := (be32 x, be32 y)

/-- `toPoint(bx, by)`: the fold of each instance (R139). -/
def toPoint (bx byy : Bytes32) : Nat × Nat :=
  (fold (slice bx.bytes 0 32), fold (slice byy.bytes 0 32))

/-- CC.FROMLIMBS `high`, `low` (R140). -/
def execCcFromLimbs (high low : Int256) (s : State) : Outcome :=
  match fromLimbs high.toNat low.toNat with
  | .error e => raise e s
  | .ok inst => respondOK inst.bytes s

/-- CC.TOLIMBS `inst` (R141). -/
def execCcToLimbs (inst : Bytes32) (s : State) : Outcome :=
  let limbs := toLimbs inst
  respondOK (intField limbs.1 ++ intField limbs.2) s

/-- CC.FROMPOINT `x`, `y` (R142). -/
def execCcFromPoint (x y : Int256) (s : State) : Outcome :=
  let codecs := fromPoint x.toNat y.toNat
  respondOK (codecs.1.bytes ++ codecs.2.bytes) s

/-- CC.TOPOINT `bx`, `by` (R143). -/
def execCcToPoint (bx byy : Bytes32) (s : State) : Outcome :=
  let point := toPoint bx byy
  respondOK (intField point.1 ++ intField point.2) s

end Sys2Proof.Machine
end

