-- ==== Sys2Proof/Machine/Hash.lean ====
section
/-! DEFINITION. The hash of the HSW and FRV units (40_hash_splitter.md): its constants, bit functions, message
schedule, round and compression. AZS does not name the hash; the spec takes it to be SHA-256 (R3, decision D22), and
every formula here is the spec's own rule (assumption log entry 2). -/

namespace Sys2Proof.Machine

/-- `ROTR(x, n)`, rotate right (R16). -/
def rotr (x : Word) (n : Nat) : Word := (x >>> n) ||| (x <<< (32 - n))

/-- `SHR(x, n)`, shift right with zeros entering (R16). -/
def shr (x : Word) (n : Nat) : Word := x >>> n

/-- `Ch`, the choose function: each bit of `x` chooses the bit of `y` (1) or of `z` (0) (R96). -/
def ch (x y z : Word) : Word := (x &&& y) ^^^ (~~~x &&& z)

/-- `Maj`, the majority function (R96). -/
def maj (x y z : Word) : Word := (x &&& y) ^^^ (x &&& z) ^^^ (y &&& z)

/-- `BSIG0`, used with `Maj` on lane `a` (R97). -/
def bsig0 (x : Word) : Word := rotr x 2 ^^^ rotr x 13 ^^^ rotr x 22

/-- `BSIG1`, used with `Ch` on lane `e` (R97). -/
def bsig1 (x : Word) : Word := rotr x 6 ^^^ rotr x 11 ^^^ rotr x 25

/-- `SSIG0`, of the message schedule (R97). -/
def ssig0 (x : Word) : Word := rotr x 7 ^^^ rotr x 18 ^^^ shr x 3

/-- `SSIG1`, of the message schedule (R97). -/
def ssig1 (x : Word) : Word := rotr x 17 ^^^ rotr x 19 ^^^ shr x 10

/-- `IV`, the initial chaining state (R94). -/
def iv : CompressionState :=
  { a := 0x6a09e667, b := 0xbb67ae85, c := 0x3c6ef372, d := 0xa54ff53a
    e := 0x510e527f, f := 0x9b05688c, g := 0x1f83d9ab, h := 0x5be0cd19 }

/-- The round constants `K[0]` to `K[63]` (R95), row by row. -/
def roundConstants : List Word :=
  [0x428a2f98, 0x71374491, 0xb5c0fbcf, 0xe9b5dba5, 0x3956c25b, 0x59f111f1, 0x923f82a4, 0xab1c5ed5] ++
  [0xd807aa98, 0x12835b01, 0x243185be, 0x550c7dc3, 0x72be5d74, 0x80deb1fe, 0x9bdc06a7, 0xc19bf174] ++
  [0xe49b69c1, 0xefbe4786, 0x0fc19dc6, 0x240ca1cc, 0x2de92c6f, 0x4a7484aa, 0x5cb0a9dc, 0x76f988da] ++
  [0x983e5152, 0xa831c66d, 0xb00327c8, 0xbf597fc7, 0xc6e00bf3, 0xd5a79147, 0x06ca6351, 0x14292967] ++
  [0x27b70a85, 0x2e1b2138, 0x4d2c6dfc, 0x53380d13, 0x650a7354, 0x766a0abb, 0x81c2c92e, 0x92722c85] ++
  [0xa2bfe8a1, 0xa81a664b, 0xc24b8b70, 0xc76c51a3, 0xd192e819, 0xd6990624, 0xf40e3585, 0x106aa070] ++
  [0x19a4c116, 0x1e376c08, 0x2748774c, 0x34b0bcb5, 0x391c0cb3, 0x4ed8aa4a, 0x5b9cca4f, 0x682e6ff3] ++
  [0x748f82ee, 0x78a5636f, 0x84c87814, 0x8cc70208, 0x90befffa, 0xa4506ceb, 0xbef9a3f7, 0xc67178f2]

/-- `K[t]` (R95). -/
def roundConstant (t : Nat) : Word := roundConstants.getD t 0

/-- The schedule word that follows the words `W[0]` to `W[t-1]`, for `t = |W| >= 16` (R98). -/
def nextScheduleWord (W : List Word) : Word :=
  let t := W.length
  ssig1 (W.getD (t - 2) 0) + W.getD (t - 7) 0 + ssig0 (W.getD (t - 15) 0) + W.getD (t - 16) 0

/-- The words `W` with the `n` schedule words that follow them (R98). -/
def extendSchedule : Nat → List Word → List Word
  | 0, W => W
  | n + 1, W => extendSchedule n (W ++ [nextScheduleWord W])

/-- The 16 message words of a block (R93). -/
def blockWords (block : Bytes) : List Word := (List.range 16).map (wordAt block)

/-- The message schedule `W[0]` to `W[63]` of a block (R98). -/
def schedule (block : Bytes) : List Word := extendSchedule 48 (blockWords block)

/-- `T1` of a round (R99, R121). -/
def roundT1 (st : CompressionState) (k w : Word) : Word :=
  st.h + bsig1 st.e + ch st.e st.f st.g + k + w

/-- `T2` of a round (R99, R121). -/
def roundT2 (st : CompressionState) : Word := bsig0 st.a + maj st.a st.b st.c

/-- `Round(st, k, w)`, one round (R99). -/
def hashRound (st : CompressionState) (k w : Word) : CompressionState :=
  let t1 := roundT1 st k w
  { a := t1 + roundT2 st, b := st.a, c := st.b, d := st.c
    e := st.d + t1, f := st.e, g := st.f, h := st.g }

/-- `st_t`: the state after the rounds `0` to `t-1` of a block with schedule `W`, from the chaining state `H`
(R100). -/
def hashRounds (H : CompressionState) (W : List Word) : Nat → CompressionState
  | 0 => H
  | t + 1 => hashRound (hashRounds H W t) (roundConstant t) (W.getD t 0)

/-- The chaining step: eight lane-wise additions (R100, R122). -/
def chain (H st : CompressionState) : CompressionState :=
  { a := H.a + st.a, b := H.b + st.b, c := H.c + st.c, d := H.d + st.d
    e := H.e + st.e, f := H.f + st.f, g := H.g + st.g, h := H.h + st.h }

/-- `Compress(H, block)`: all 64 rounds and the chaining step (R100). -/
def compress (H : CompressionState) (block : Bytes) : CompressionState :=
  chain H (hashRounds H (schedule block) 64)

end Sys2Proof.Machine
end

