-- ==== Sys2Proof/Machine/Frv.lean ====
section
/-! DEFINITION. The FRV unit: FRV.VERIFY (41_final_round_verifier.md). One round, one chaining step, one
comparison, and no other check (R127). -/

namespace Sys2Proof.Machine

/-- The candidate chaining state: the omitted round replayed (R121) and folded into `init` (R122). -/
def candidate (w : RoundWitness) : CompressionState := chain w.init (hashRound w.pen w.rc w.mw)

/-- The candidate digest, 32 bytes (R123). -/
def replay (w : RoundWitness) : Bytes32 := stateDigest (candidate w)

/-- FRV.VERIFY `witness`, `claimed` (R125): OK means accept; a reject is MISMATCH/DIGEST and discloses nothing else
(R126). -/
def execFrvVerify (witness : RoundWitness) (claimed : Bytes32) (s : State) : Outcome :=
  if (replay witness).bytes = claimed.bytes then respondOK [] s else raise .digest s

end Sys2Proof.Machine
end

