-- ==== Sys2Proof/Machine/Hsw.lean ====
section
/-! DEFINITION. The HSW unit: HS.SPLIT (40_hash_splitter.md). It pads a message, compresses every block but the last
in full, stops the last one round short, and computes the reference digest by the full path. -/

namespace Sys2Proof.Machine

/-- `k = (55 - L) mod 64`, the number of zero bytes of the padding (R91). -/
def padZeros (L : Nat) : Nat := ((55 - (L : Int)) % 64).toNat

/-- The padded message `P = S ‖ 0x80 ‖ 0x00^k ‖ BE(8, 8*L)` (R91). -/
def pad (S : Bytes) : Bytes :=
  S ++ [0x80] ++ List.replicate (padZeros S.length) 0x00 ++ be 8 (8 * S.length)

/-- `N`, the number of blocks of a message of `L` bytes (R91). -/
def blockCount (L : Nat) : Nat := (L + 9 + 63) / 64

/-- Block `j` of a padded message, `P[64j : 64j+64]` (R93). -/
def blockAt (P : Bytes) (j : Nat) : Bytes := slice P (64 * j) (64 * j + 64)

/-- `H_j`: the chaining state once the blocks `0` to `j-1` are compressed in full (R101). -/
def chaining (P : Bytes) : Nat → CompressionState
  | 0 => iv
  | j + 1 => compress (chaining P j) (blockAt P j)

/-- The witness of a message: the last block stopped one round short (R102). -/
def splitWitness (S : Bytes) : RoundWitness :=
  let P := pad S
  let last := blockCount S.length - 1
  let H := chaining P last
  let W := schedule (blockAt P last)
  { pen := hashRounds H W 63, init := H, mw := W.getD 63 0, rc := roundConstant 63 }

/-- The reference digest of a message, by the full 64 rounds of every block and not from the witness (R103). -/
def splitDigest (S : Bytes) : Bytes32 :=
  stateDigest (chaining (pad S) (blockCount S.length))

/-- HS.SPLIT `msg` (R104): reads and writes no state; the witness and the digest come in one response (decision
D30). The function is defined up to `2^61 - 1` bytes (R91, `90_conflicts.md` C4); beyond it nothing is claimed
(assumption log entry 8), and the decoder lets no such message through. -/
def execHsSplit (msg : Bytes) (s : State) : Outcome :=
  if msg.length < Config.trailerLimit then
    respondOK (witnessBytes (splitWitness msg) ++ (splitDigest msg).bytes) s
  else
    .refused .beyondTrailer

end Sys2Proof.Machine
end

