-- ==== Sys2Proof/Machine/Scb.lean ====
section
/-! DEFINITION. The SCB unit: the eight counter-bank commands (43_counter_bank.md). The scans are written out over
all 25 slots, as the rules write them, so that the fixed work per access can be read off them (R176, R226). -/

namespace Sys2Proof.Machine

/-- The scan of `getCounter` over all 25 slots (R162). -/
def scanRead (bank : Bank) (id : Nat) : Nat :=
  (List.range Config.numCounters).foldl
    (fun value i => value + (if id = i then slot bank i else 0)) 0

/-- `getCounter(bank, id)`: the id check, then the scan (R162, R193). -/
def getCounter (bank : Bank) (id : Nat) : Except Error Nat :=
  if id > 24 then .error .counterId else .ok (scanRead bank id)

/-- The scan of `setCounter` over all 25 slots, the headroom carried over (R163, R178). -/
def scanWrite (bank : Bank) (id newValue : Nat) : Nat :=
  (List.range Config.numCounters).foldl
    (fun acc i => acc + (if id = i then newValue else slot bank i) * 2 ^ (10 * i)) 0
    + headroom bank * 2 ^ 250

/-- `setCounter(bank, id, newValue)`: the id check, then the value check, then the scan (R163). -/
def setCounter (bank : Bank) (id newValue : Nat) : Except Error Bank :=
  if id > 24 then .error .counterId
  else if newValue > Config.counterMax then .error .counterValue
  else .ok (BitVec.ofNat 254 (scanWrite bank id newValue))

/-- `incrementCounter(bank, id)`: never wraps, never carries into the next slot (R164). -/
def incrementCounter (bank : Bank) (id : Nat) : Except Error Bank :=
  match getCounter bank id with
  | .error e => .error e
  | .ok current =>
    if current ≥ Config.counterMax then .error .saturated else setCounter bank id (current + 1)

/-- `isFull(bank, id)`: `current == 1023` (R165). -/
def isFull (bank : Bank) (id : Nat) : Except Error Bool :=
  match getCounter bank id with
  | .error e => .error e
  | .ok current => .ok (current == Config.counterMax)

/-- `totalCount(bank)`: the exact sum of all 25 counters; the headroom is not counted (R166). -/
def totalCount (bank : Bank) : Nat :=
  ((List.range Config.numCounters).map (slot bank)).sum

/-- `findMax(bank)`: the scan of slots 1 to 24 from `(0, slot 0)`, overwriting on strict improvement only, so that
a tie goes to the lowest index (R167). -/
def findMax (bank : Bank) : Nat × Nat :=
  (List.range' 1 24).foldl
    (fun best i => if slot bank i > best.2 then (i, slot bank i) else best) (0, slot bank 0)

/-- SCB.LOAD `v` (R168): a scalar of `2^254` or more is refused and never truncated. -/
def execScbLoad (v : Int256) (s : State) : Outcome :=
  if v.toNat ≥ 2 ^ Config.scalarBits then raise .bankWidth s
  else respondOK [] (s.writeBank (BitVec.ofNat 254 v.toNat))

/-- SCB.STORE (R169). -/
def execScbStore (s : State) : Outcome := respondOK (intField s.bank.toNat) s

/-- SCB.GET `id` (R170). -/
def execScbGet (id : Int256) (s : State) : Outcome :=
  match getCounter s.bank id.toNat with
  | .error e => raise e s
  | .ok value => respondOK (intField value) s

/-- SCB.SET `id`, `newValue` (R171). -/
def execScbSet (id newValue : Int256) (s : State) : Outcome :=
  match setCounter s.bank id.toNat newValue.toNat with
  | .error e => raise e s
  | .ok b => respondOK [] (s.writeBank b)

/-- SCB.INC `id` (R172). -/
def execScbInc (id : Int256) (s : State) : Outcome :=
  match incrementCounter s.bank id.toNat with
  | .error e => raise e s
  | .ok b => respondOK [] (s.writeBank b)

/-- SCB.ISFULL `id` (R173). -/
def execScbIsFull (id : Int256) (s : State) : Outcome :=
  match isFull s.bank id.toNat with
  | .error e => raise e s
  | .ok full => respondOK (boolField full) s

/-- SCB.TOTAL (R174). -/
def execScbTotal (s : State) : Outcome := respondOK (intField (totalCount s.bank)) s

/-- SCB.FINDMAX (R175). -/
def execScbFindMax (s : State) : Outcome :=
  let best := findMax s.bank
  respondOK (intField best.1 ++ intField best.2) s

end Sys2Proof.Machine
end

