-- ==== Sys2Proof/Machine/Dispatch.lean ====
section
/-! DEFINITION. Which meaning each command has: one arm per constructor of `Instr`, in the order of the opcode map
(R66). -/

namespace Sys2Proof.Machine

def exec (i : Instr) (s : State) : Host.Outcome State Fault Refusal :=
  match i with
  | .hsSplit msg => Sys2Proof.Machine.execHsSplit msg s
  | .frvVerify witness claimed => Sys2Proof.Machine.execFrvVerify witness claimed s
  | .ccFromLimbs high low => Sys2Proof.Machine.execCcFromLimbs high low s
  | .ccToLimbs inst => Sys2Proof.Machine.execCcToLimbs inst s
  | .ccFromPoint x y => Sys2Proof.Machine.execCcFromPoint x y s
  | .ccToPoint bx byy => Sys2Proof.Machine.execCcToPoint bx byy s
  | .scbLoad v => Sys2Proof.Machine.execScbLoad v s
  | .scbStore => Sys2Proof.Machine.execScbStore s
  | .scbGet id => Sys2Proof.Machine.execScbGet id s
  | .scbSet id newValue => Sys2Proof.Machine.execScbSet id newValue s
  | .scbInc id => Sys2Proof.Machine.execScbInc id s
  | .scbIsFull id => Sys2Proof.Machine.execScbIsFull id s
  | .scbTotal => Sys2Proof.Machine.execScbTotal s
  | .scbFindMax => Sys2Proof.Machine.execScbFindMax s

end Sys2Proof.Machine
end

