-- ==== Sys2Proof/Machine/Step.lean ====
section
/-! DEFINITION. One step of the block: it takes the input at the head of the command port and answers it (R9, R10,
R60). -/

namespace Sys2Proof.Machine

/-- One step. A command packet is decoded and executed whole, or answered ILLEGAL (R67, R194); reset clears the bank and
is answered by nothing (R215, R216); with nothing on the port the block waits (R217). -/
def step (s : State) : Host.Outcome State Fault Refusal :=
  match s.port with
  | [] => .next s
  | .packet p :: rest =>
    match decode p with
    | .ok i => exec i (s.took rest)
    | .error why => raise (.illegal why) (s.took rest)
  | .reset :: rest => .next (s.took rest).resetBlock
  | .resetDuring _ :: rest => .next (s.took rest).resetBlock

/-- `s` with the instruction whose table bits are `w` at the head of the command port, where the next step takes its
command (assumption log entry 5). -/
def State.withFetchWord (s : State) (nbits w : Nat) : State := s.offer (tablePacket nbits w)

end Sys2Proof.Machine
end

