-- ==== Sys2Proof/Machine/Assembler.lean ====
section
/-! DEFINITION. The host's side of the interface: sequences of commands with the host's variables (R77), operand
literals (R78) and the pseudo-commands (R79). Nothing here is state of the block: a line is sent as a packet, the block
answers it by `step`, and the host keeps the results (assumption log entry 9). -/

namespace Sys2Proof.Machine

/-- What a host variable or an operand holds (R77, R78). -/
inductive Value where
  /-- an integer of an INT256 field -/
  | int (v : Int256)
  /-- a byte string: a message, a digest, a codec instance or the 72 bytes of a witness -/
  | bytes (b : Bytes)
  /-- the boolean of SCB.ISFULL -/
  | bool (b : Bool)
  deriving DecidableEq, Repr

/-- The operand literals (R78). -/
inductive Literal where
  /-- an integer in decimal or in hexadecimal -/
  | number (n : Nat)
  /-- a power expression, `base^exponent` -/
  | power (base exponent : Nat)
  /-- a power expression less a number, such as `2^128-1` -/
  | powerLess (base exponent less : Nat)
  /-- `h"..."`, an even number of lowercase hexadecimal characters, first byte leftmost -/
  | hex (digits : String)
  /-- `"text"`, the ASCII bytes of the text with no terminator -/
  | text (chars : String)
  /-- a witness by its four parts, lanes and words as 8 hexadecimal characters -/
  | witness (w : RoundWitness)
  deriving DecidableEq, Repr

/-- The value of a lowercase hexadecimal character (R19, R78). -/
def hexDigit (c : Char) : Option Nat :=
  if 48 ≤ c.toNat ∧ c.toNat ≤ 57 then some (c.toNat - 48)
  else if 97 ≤ c.toNat ∧ c.toNat ≤ 102 then some (c.toNat - 87)
  else none

/-- The bytes of a string of hexadecimal characters, two to a byte (R19). -/
def hexBytes : List Char → Option Bytes
  | [] => some []
  | [_] => none
  | c :: c' :: rest =>
    match hexDigit c, hexDigit c', hexBytes rest with
    | some hi, some lo, some bs => some (BitVec.ofNat 8 (hi * 16 + lo) :: bs)
    | _, _, _ => none

/-- An integer as an operand: it must fit an INT256 (R33). -/
def intValue (n : Nat) : Option Value :=
  if n < 2 ^ 256 then some (.int (BitVec.ofNat 256 n)) else none

/-- The value of a literal; `none` where it is not a literal of R78. -/
def literalValue : Literal → Option Value
  | .number n => intValue n
  | .power base exponent => intValue (base ^ exponent)
  | .powerLess base exponent less => if less ≤ base ^ exponent then intValue (base ^ exponent - less) else none
  | .hex digits => (hexBytes digits.toList).map .bytes
  | .text chars =>
    if chars.toList.all (fun c => decide (c.toNat < 128)) then
      some (.bytes (chars.toList.map fun c => BitVec.ofNat 8 c.toNat))
    else none
  | .witness w => some (.bytes (witnessBytes w))

/-- An operand of a line: a literal, or a host variable that supplies its value (R77). -/
inductive Operand where
  | lit (l : Literal)
  | var (name : String)
  deriving DecidableEq, Repr

/-- The mnemonics of R66. -/
inductive Mnemonic where
  | hsSplit | frvVerify | ccFromLimbs | ccToLimbs | ccFromPoint | ccToPoint
  | scbLoad | scbStore | scbGet | scbSet | scbInc | scbIsFull | scbTotal | scbFindMax
  deriving DecidableEq, Repr

/-- The pseudo-commands of R79. -/
inductive Pseudo where
  | scbClear | ccPackDigest | ccUnpackDigest | ccPackPt | ccUnpackPt | hsCheck
  deriving DecidableEq, Repr

/-- One command of a sequence: the variables on the left of the arrow, the mnemonic, the operands (R77). -/
structure Line where
  dests    : List String
  mnemonic : Mnemonic
  operands : List Operand
  deriving DecidableEq, Repr

/-- The host's variables, the latest binding first (R77). -/
abbrev HostVars := List (String × Value)

/-- The value of an operand (R77). -/
def operandValue (vars : HostVars) : Operand → Option Value
  | .lit l => literalValue l
  | .var name => vars.lookup name

/-- A byte string as a 32-byte operand. -/
def asBytes32 (b : Bytes) : Option Bytes32 := if h : b.length = 32 then some ⟨b, h⟩ else none

/-- The command a mnemonic and its operand values stand for (R66, R77); `none` where the operands are not the
mnemonic's. -/
def assemble : Mnemonic → List Value → Option Instr
  | .hsSplit, [.bytes msg] => some (.hsSplit msg)
  | .frvVerify, [.bytes w, .bytes d] =>
    if w.length = 72 then (asBytes32 d).map (.frvVerify (witnessOf w)) else none
  | .ccFromLimbs, [.int high, .int low] => some (.ccFromLimbs high low)
  | .ccToLimbs, [.bytes b] => (asBytes32 b).map .ccToLimbs
  | .ccFromPoint, [.int x, .int y] => some (.ccFromPoint x y)
  | .ccToPoint, [.bytes b0, .bytes b1] =>
    match asBytes32 b0, asBytes32 b1 with
    | some bx, some byy => some (.ccToPoint bx byy)
    | _, _ => none
  | .scbLoad, [.int v] => some (.scbLoad v)
  | .scbStore, [] => some .scbStore
  | .scbGet, [.int id] => some (.scbGet id)
  | .scbSet, [.int id, .int newValue] => some (.scbSet id newValue)
  | .scbInc, [.int id] => some (.scbInc id)
  | .scbIsFull, [.int id] => some (.scbIsFull id)
  | .scbTotal, [] => some .scbTotal
  | .scbFindMax, [] => some .scbFindMax
  | _, _ => none

/-- The result fields of an OK response, in the order of R71, from byte 2 on. -/
def resultValues (i : Instr) (r : Packet) : List Value :=
  let intAt (k : Nat) : Value := .int (intOf (slice r k (k + 32)))
  let bytesAt (k : Nat) : Value := .bytes (slice r k (k + 32))
  match i with
  | .hsSplit _ => [.bytes (slice r 2 74), bytesAt 74]
  | .frvVerify _ _ => []
  | .ccFromLimbs _ _ => [bytesAt 2]
  | .ccToLimbs _ => [intAt 2, intAt 34]
  | .ccFromPoint _ _ => [bytesAt 2, bytesAt 34]
  | .ccToPoint _ _ => [intAt 2, intAt 34]
  | .scbLoad _ => []
  | .scbStore => [intAt 2]
  | .scbGet _ => [intAt 2]
  | .scbSet _ _ => []
  | .scbInc _ => []
  | .scbIsFull _ => [.bool (slice r 2 3 == [0x01])]
  | .scbTotal => [intAt 2]
  | .scbFindMax => [intAt 2, intAt 34]

/-- The host and the block together: the host's variables, the block, and the response to the last command. -/
structure HostRun where
  vars  : HostVars
  block : State
  last  : Packet
  deriving DecidableEq, Repr

/-- Sends one packet and takes the response to it (R60). -/
def sendPacket (p : Packet) (s : State) : Option (Packet × State) :=
  match step (s.offer p) with
  | .next t => t.sent.getLast?.map fun r => (r, t)
  | .fault _ => none
  | .refused _ => none

/-- Sends one command and, on an OK response, binds its results to the variables of the line (R77). `none` where the
line is no command. -/
def runLine (l : Line) (h : HostRun) : Option HostRun :=
  match l.operands.mapM (operandValue h.vars) with
  | none => none
  | some values =>
    match assemble l.mnemonic values with
    | none => none
    | some i =>
      match sendPacket (encode i) h.block with
      | none => none
      | some (r, t) =>
        let bound := if r.head? = some (statusCode .ok) then l.dests.zip (resultValues i r) else []
        some { vars := bound.reverse ++ h.vars, block := t, last := r }

/-- Sends the commands of a sequence one after another; where one fails, none of the rest (R79). -/
def runSequence : List Line → HostRun → Option HostRun
  | [], h => some h
  | l :: rest, h =>
    match runLine l h with
    | none => none
    | some h' => if h'.last.head? = some (statusCode .ok) then runSequence rest h' else some h'

/-- Whether the response to a line is the one the line states: an OK response, or the error written after `!`
(R77). -/
def responseStated (expected : Option Error) (r : Packet) : Bool :=
  match expected with
  | none => r.head? == some (statusCode .ok)
  | some e => r == errorResponse e

/-- The expansion of a pseudo-command, with its variables and operands in their places (R79); `none` where their
number is not the pseudo-command's. -/
def expand : Pseudo → List String → List Operand → Option (List Line)
  | .scbClear, [], [] => some [⟨[], .scbLoad, [.lit (.number 0)]⟩]
  | .ccPackDigest, [h, l], [d] => some [⟨[h, l], .ccToLimbs, [d]⟩]
  | .ccUnpackDigest, [d], [h, l] => some [⟨[d], .ccFromLimbs, [h, l]⟩]
  | .ccPackPt, [xh, xl, yh, yl], [x, y] =>
    some [⟨["bx", "by"], .ccFromPoint, [x, y]⟩,
      ⟨[xh, xl], .ccToLimbs, [.var "bx"]⟩,
      ⟨[yh, yl], .ccToLimbs, [.var "by"]⟩]
  | .ccUnpackPt, [x, y], [xh, xl, yh, yl] =>
    some [⟨["bx"], .ccFromLimbs, [xh, xl]⟩,
      ⟨["by"], .ccFromLimbs, [yh, yl]⟩,
      ⟨[x, y], .ccToPoint, [.var "bx", .var "by"]⟩]
  | .hsCheck, [], [msg] =>
    some [⟨["w", "d"], .hsSplit, [msg]⟩,
      ⟨[], .frvVerify, [.var "w", .var "d"]⟩]
  | _, _, _ => none

end Sys2Proof.Machine
end

