-- ==== Sys2Proof/Safety.lean ====
section
/-! DEFINITION. What counts as a safe run, in the words the claims use: which packets are responses of the block,
which errors each command can raise, and that no failure is ever reported as success (R191, R196, R199, R203). -/

namespace Sys2Proof.Machine

/-- The errors the block produces. SELFCHECK is defined and never produced (R136, U7). -/
def producedErrors : List Error :=
  [.limbHigh, .limbLow, .counterValue, .saturated, .bankWidth, .digest, .counterId,
   .illegal .opcode, .illegal .length]

/-- The payload lengths of the OK responses (R71). -/
def payloadLengths : List Nat := [0, 1, 32, 64, 104]

/-- The packet is a response of the block: OK with detail 0x00 and a payload of a length of R71, or the two bytes of
an error the block produces (R70, R190, R191). -/
def isResponse (r : Packet) : Bool :=
  (r.take 2 == [0x00#8, 0x00#8] && payloadLengths.contains (r.length - 2))
    || producedErrors.any fun e => r == errorResponse e

/-- The invariant of the block: everything it has ever answered is a response (R70, R190, R191). -/
def State.Inv (s : State) : Prop := ∀ r ∈ s.sent, isResponse r = true

/-- Every error a command can raise by itself (R196); ILLEGAL is the decoder's and no command's (R194). -/
def mayRaise : Instr → List Error
  | .hsSplit _ => []
  | .frvVerify _ _ => [.digest]
  | .ccFromLimbs _ _ => [.limbHigh, .limbLow]
  | .ccToLimbs _ => []
  | .ccFromPoint _ _ => []
  | .ccToPoint _ _ => []
  | .scbLoad _ => [.bankWidth]
  | .scbStore => []
  | .scbGet _ => [.counterId]
  | .scbSet _ _ => [.counterId, .counterValue]
  | .scbInc _ => [.counterId, .saturated]
  | .scbIsFull _ => [.counterId]
  | .scbTotal => []
  | .scbFindMax => []

/-- The length of the OK response of a command (R71). -/
def okResponseLength : Instr → Nat
  | .hsSplit _ => 106
  | .frvVerify _ _ => 2
  | .ccFromLimbs _ _ => 34
  | .ccToLimbs _ => 66
  | .ccFromPoint _ _ => 66
  | .ccToPoint _ _ => 66
  | .scbLoad _ => 2
  | .scbStore => 34
  | .scbGet _ => 34
  | .scbSet _ _ => 2
  | .scbInc _ => 2
  | .scbIsFull _ => 3
  | .scbTotal => 34
  | .scbFindMax => 66

/-- The words of a witness, `pen[0..7]`, `init[0..7]`, `mw`, `rc` (R30). -/
def witnessWords (w : RoundWitness) : List Word := lanes w.pen ++ lanes w.init ++ [w.mw, w.rc]

/-- FRV.VERIFY accepts the witness against the digest: it answers OK and nothing else changes (R125). -/
def Accepts (w : RoundWitness) (d : Bytes32) : Prop :=
  ∀ s, exec (.frvVerify w d) s = .next (s.give [0x00#8, 0x00#8])

/-- FRV.VERIFY rejects the witness against the digest: it answers MISMATCH/DIGEST and nothing else changes
(R125, R126). -/
def Rejects (w : RoundWitness) (d : Bytes32) : Prop :=
  ∀ s, exec (.frvVerify w d) s = .next (s.give [0x02#8, 0x01#8])

/-- A run of the block from `s` is safe when it ends in a state: no step of it faults and none is refused (R10,
R200). -/
def SafeRun (n : Nat) (s : State) : Prop := ∃ t, Sys2Proof.core.run n s = .next t

end Sys2Proof.Machine
end

