-- ==== Sys2Proof/Certificates/Slice0/Obligations.lean ====
section
/-! DEFINITION. The statements about the block, each a proposition the provers settle. A next state is written as the
state before with what the command changed (`give` appends one response to the response port, `writeBank` writes
BANK), so an equation of outcomes is the frame too: every other part of the state is as it was. -/

open Sys2Proof Sys2Proof.Machine

/-! ### Packets -/

/-- Decoding an encoded well-formed command gives the command back, with every operand at every value its format
admits (R62 to R67). -/
def Obligations.DecodeOfEncode : Prop :=
  ∀ i : Instr, i.WellFormed → decode (encode i) = .ok i

/-- Only the encoding of a command decodes to it: no bit of a packet is ignored, and what decodes is well-formed
(R69, R76). -/
def Obligations.EncodeOfDecode : Prop :=
  ∀ (p : Packet) (i : Instr), decode p = .ok i → i.WellFormed ∧ encode i = p

/-- R67: the decoder is total, and which of its three answers a packet gets: the empty packet is LENGTH, an
unassigned opcode is OPCODE whatever the length, an assigned one at a wrong length is LENGTH, and at a right length
there is a command of that opcode, for the unit its high four bits select (R66). -/
def Obligations.DecoderVerdicts : Prop :=
  decode [] = .error .length ∧
  ∀ (op : Byte) (ops : Bytes),
    if op ∉ [0x10#8, 0x20#8, 0x30#8, 0x31#8, 0x32#8, 0x33#8, 0x40#8, 0x41#8, 0x42#8, 0x43#8, 0x44#8, 0x45#8,
      0x46#8, 0x47#8] then decode (op :: ops) = .error .opcode
    else if (op = 0x10#8 ∧ ops.length ≤ Config.maxMsgBytes) ∨
        (op ∈ [0x41#8, 0x46#8, 0x47#8] ∧ ops.length = 0) ∨
        (op ∈ [0x31#8, 0x40#8, 0x42#8, 0x44#8, 0x45#8] ∧ ops.length = 32) ∨
        (op ∈ [0x30#8, 0x32#8, 0x33#8, 0x43#8] ∧ ops.length = 64) ∨
        (op = 0x20#8 ∧ ops.length = 104) then ∃ i : Instr,
      i.opcode = op ∧ op.toNat / 16 = i.unit.number ∧ decode (op :: ops) = .ok i
    else decode (op :: ops) = .error .length

/-- A few packets written out from the encoding tables decode to the commands they stand for: one of each unit
(R62, R64, R66). -/
def Obligations.WrittenOutPackets : Prop :=
  decode [0x10#8] = .ok (.hsSplit []) ∧
  decode (0x44#8 :: (List.replicate 31 0x00#8 ++ [0x18#8])) = .ok (.scbInc 24) ∧
  decode (0x30#8 :: (List.replicate 31 0x00#8 ++ [0x01#8] ++ List.replicate 31 0x00#8 ++ [0x02#8])) =
    .ok (.ccFromLimbs 1 2) ∧
  decode (0x20#8 :: (List.replicate 67 0x00#8 ++ [0x05#8] ++ List.replicate 36 0x00#8)) =
    .ok (.frvVerify ⟨⟨0, 0, 0, 0, 0, 0, 0, 0⟩, ⟨0, 0, 0, 0, 0, 0, 0, 0⟩, 5, 0⟩ ⟨List.replicate 32 0, rfl⟩)

/-- R14: `BE(n, v)` has `n` bytes, and byte `k` is `floor(v / 256^(n-1-k)) mod 256`. -/
def Obligations.BigEndianBytes : Prop :=
  ∀ n v k : Nat, v < 2 ^ (8 * n) → (be n v).length = n ∧
    (k < n → ((be n v)[k]?).map BitVec.toNat = some (v / 256 ^ (n - 1 - k) % 256))

/-- R15: `fold` starts at 0 and takes each byte by `value*256 + nextByte`, exactly, and `fold` and `BE` undo each
other. -/
def Obligations.FoldAndBigEndian : Prop :=
  fold [] = 0 ∧ (∀ (s : Bytes) (b : Byte), fold (s ++ [b]) = fold s * 256 + b.toNat) ∧
  (∀ n v : Nat, v < 2 ^ (8 * n) → fold (be n v) = v) ∧ (∀ s : Bytes, be s.length (fold s) = s)

/-! ### Steps -/

/-- The instruction a table word stands for is the one the next step runs, when the word is placed where the step
takes its command; nothing else of the state matters to it and nothing else is changed. -/
def Obligations.PlacedWordRuns : Prop :=
  ∀ (s : State) (nbits w : Nat) (i : Instr),
    decodeTableWord nbits w = some i → step (s.withFetchWord nbits w) = exec i s

/-- When the packet at the head of the command port decodes to a command, the step is that command's meaning on the
state with the packet taken off the port, and nothing else. -/
def Obligations.StepRunsDecoded : Prop :=
  ∀ (s : State) (p : Packet) (rest : List Input) (i : Instr),
    s.port = .packet p :: rest → decode p = .ok i → i.WellFormed → step s = exec i { s with port := rest }

/-- R194: a packet that is no command is answered by the two bytes of ILLEGAL, with OPCODE or LENGTH as the decoder
says, and nothing of the state changes but the packet being taken and the response being given. -/
def Obligations.StepAnswersIllegal : Prop :=
  ∀ (s : State) (p : Packet) (rest : List Input) (why : Illegal),
    s.port = .packet p :: rest → decode p = .error why →
    step s = .next { s with
      port := rest, sent := s.sent ++ [[0x04#8, if why = .opcode then 0x01#8 else 0x02#8]] }

/-- The step is total (R10): no state, reached or not, makes it fault or refuse, and so every run of any length from
any state is safe. -/
def Obligations.StepIsTotal : Prop :=
  (∀ s : State, ∃ t : State, step s = .next t) ∧ ∀ (n : Nat) (s : State), SafeRun n s

/-- R60: the block takes one command packet, gives exactly one response packet, after all the earlier ones, and only
then is the next packet next. -/
def Obligations.OneResponsePerPacket : Prop :=
  ∀ (s : State) (p : Packet) (rest : List Input), s.port = .packet p :: rest →
    ∃ (b : Bank) (r : Packet), step s = .next { bank := b, port := rest, sent := s.sent ++ [r] }

/-- R58, R230: a list of packets sent to the block is answered by a list of as many responses, in order, and at the
end the port is empty; the run never stops before. -/
def Obligations.RunAnswersEveryPacket : Prop :=
  ∀ (ps : List Packet) (s : State), s.port = ps.map .packet →
    ∃ (b : Bank) (rs : List Packet), rs.length = ps.length ∧
      Sys2Proof.core.run ps.length s = .next { bank := b, port := [], sent := s.sent ++ rs }

/-- R38: two equal commands issued with equal BANK give equal responses and equal next BANK, whatever else was sent
and answered before and whatever waits on the port. -/
def Obligations.EqualBankEqualAnswer : Prop :=
  ∀ (p : Packet) (b : Bank), ∃ (b' : Bank) (r : Packet), ∀ s : State, ∀ rest : List Input,
    s.bank = b → s.port = .packet p :: rest →
    step s = .next { bank := b', port := rest, sent := s.sent ++ [r] }

/-- The six commands of the HSW, FRV and CC units read no state and write none: their response is the same whatever
BANK holds, and BANK stays (R37). -/
def Obligations.HashAndCodecIgnoreBank : Prop :=
  ∀ i : Instr, i.WellFormed → i.unit ≠ .scb →
    ∃ r : Packet, ∀ s : State, exec i s = .next { s with sent := s.sent ++ [r] }

/-- R37: of all commands only SCB.LOAD, SCB.SET and SCB.INC write BANK. -/
def Obligations.OnlyThreeCommandsWriteBank : Prop :=
  ∀ (i : Instr) (s t : State), exec i s = .next t →
    (∀ v, i ≠ .scbLoad v) → (∀ id v, i ≠ .scbSet id v) → (∀ id, i ≠ .scbInc id) →
    t.bank = s.bank ∧ t.port = s.port

/-- R199: a command whose response is not OK has changed nothing: BANK has the value it had, the response is the two
bytes `status ‖ detail` of an error, and the rest of the port is as it was, ready for the next command. -/
def Obligations.ErrorsChangeNothing : Prop :=
  ∀ (s t : State) (p : Packet) (rest : List Input) (r : Packet), s.port = .packet p :: rest →
    step s = .next t → t.sent = s.sent ++ [r] → r.head? ≠ some 0x00#8 →
    t = { s with port := rest, sent := s.sent ++ [r] } ∧ r.length = 2 ∧ ∃ e : Error, r = errorResponse e

/-- R200: an error does not outlive its command. After a packet whose answer is an error, the next packet is answered
and leaves BANK exactly as if the failed one had not been sent. -/
def Obligations.ErrorsAreLocal : Prop :=
  ∀ (s t u : State) (p q : Packet) (rest : List Input) (r : Packet),
    s.port = .packet p :: .packet q :: rest → step s = .next t → t.sent = s.sent ++ [r] →
    r.head? ≠ some 0x00#8 → step t = .next u →
    ∃ (v : State) (r' : Packet), step { s with port := .packet q :: rest } = .next v ∧ v.bank = u.bank ∧
      v.port = u.port ∧ v.sent = s.sent ++ [r'] ∧ u.sent = s.sent ++ [r, r']

/-- R196: a command that reaches its unit ends in an OK response of its own length or in one of the errors the table
lists for it, and in no other; no ILLEGAL is among them. -/
def Obligations.ErrorsOfEachCommand : Prop :=
  ∀ (i : Instr) (s : State), i.WellFormed →
    ∃ (b : Bank) (r : Packet), exec i s = .next { s with bank := b, sent := s.sent ++ [r] } ∧
      ((r.take 2 = [0x00#8, 0x00#8] ∧ r.length = okResponseLength i) ∨
        ∃ e ∈ mayRaise i, r = errorResponse e ∧ b = s.bank)

/-- Whatever the block has answered is a response of R70 with codes of R190 and R191, and stays so over every step
from every state. -/
def Obligations.ResponsesStayLegal : Prop :=
  ∀ s t : State, s.Inv → step s = .next t → t.Inv

/-- Nothing has been answered at reset, so the invariant of the responses holds there. -/
def Obligations.ResponsesLegalAtReset : Prop := State.reset.Inv

/-- R36, by the spec's decision D16: after reset BANK is 0, every counter is 0 and the headroom is 0 (assumption log
entry 7). -/
def Obligations.ResetLeavesZeroBank : Prop :=
  State.reset.bank = 0 ∧ (∀ i ≤ 24, slot State.reset.bank i = 0) ∧ headroom State.reset.bank = 0

/-- R216: reset clears BANK, answers nothing and takes nothing else off the port; a command packet during whose
execution it arrives is abandoned, with no response and no write that lasts. That reset stands on the port among the
packets is the model's choice (assumption log entry 6). -/
def Obligations.ResetAbandonsTheCommand : Prop :=
  ∀ (s : State) (rest : List Input),
    (s.port = .reset :: rest → step s = .next { bank := 0, port := rest, sent := s.sent }) ∧
    (∀ p : Packet, s.port = .resetDuring p :: rest →
      step s = .next { bank := 0, port := rest, sent := s.sent })

/-- With nothing on the command port the block waits: its state stays as it is (the model's reading of R217,
assumption log entry 4). -/
def Obligations.EmptyPortWaits : Prop := ∀ s : State, s.port = [] → step s = .next s

/-! ### HSW: HS.SPLIT -/

/-- HS.SPLIT (R104) answers the witness and the digest of the message, 72 and 32 bytes, and touches no state; the 72
bytes are the 18 words of the witness in the order of R64, each four big-endian bytes. Its packet is 0x10 and the
message, and the decoder raises LENGTH for a message above MAX_MSG_BYTES and for no other. What the witness and the
digest are, from the bytes of the message, is said by SplitWitnessVerifies. -/
def Obligations.HsSplitAnswers : Prop :=
  ∀ (msg : Bytes) (s : State),
    let w := splitWitness msg
    let words : List Word := [w.pen.a, w.pen.b, w.pen.c, w.pen.d, w.pen.e, w.pen.f, w.pen.g, w.pen.h,
      w.init.a, w.init.b, w.init.c, w.init.d, w.init.e, w.init.f, w.init.g, w.init.h, w.mw, w.rc]
    encode (.hsSplit msg) = 0x10#8 :: msg ∧
    decode (0x10#8 :: msg) =
      (if Config.maxMsgBytes < msg.length then .error .length else .ok (.hsSplit msg)) ∧
    (msg.length ≤ 2 ^ 61 - 1 →
      exec (.hsSplit msg) s =
        .next (s.give ([0x00#8, 0x00#8] ++ (words.flatMap fun x => be 4 x.toNat) ++ (splitDigest msg).bytes)) ∧
      (witnessBytes w).length = 72 ∧ witnessBytes w = words.flatMap fun x => be 4 x.toNat)

/-- HS.SPLIT of a message whose bit length has no 64-bit form stops by name, and no packet asks for it. That it stops
so is the model's choice (assumption log entry 8; 90_conflicts.md C4). -/
def Obligations.HsSplitBeyondTrailer : Prop :=
  ∀ (msg : Bytes) (s : State), 2 ^ 61 ≤ msg.length →
    exec (.hsSplit msg) s = .refused .beyondTrailer ∧ ∀ p : Packet, decode p ≠ .ok (.hsSplit msg)

/-- R91: the padded message is the message, 0x80, the least number of zero bytes that reaches a block boundary, and the
bit length as eight big-endian bytes; it is `N` whole blocks. -/
def Obligations.PaddingReachesBlockBoundary : Prop :=
  ∀ S : Bytes, ∃ k : Nat, (k : Int) = (55 - (S.length : Int)) % 64 ∧
    pad S = S ++ [0x80#8] ++ List.replicate k 0x00#8 ++ be 8 (8 * S.length) ∧
    (pad S).length = S.length + 1 + k + 8 ∧ (pad S).length = 64 * blockCount S.length ∧
    blockCount S.length = (S.length + 9 + 63) / 64 ∧ 1 ≤ blockCount S.length ∧
    (∀ k' < k, ¬ 64 ∣ S.length + 1 + k' + 8) ∧ (S.length ≤ 2 ^ 61 - 1 → 8 * S.length < 2 ^ 64)

/-- The block count by the length: one block more than the whole blocks of the message when the marker and the trailer
fit behind its tail, two more otherwise (R92). -/
def Obligations.BlockCountByLength : Prop :=
  ∀ L : Nat, blockCount L = if L % 64 ≤ 55 then L / 64 + 1 else L / 64 + 2

/-- The schedule of a block is 64 words, the first 16 the block's own, word `t` the fold of its bytes `4t` to `4t+3`, and
each later one from four earlier ones: the formula and the word order the spec supplies from general knowledge
(sections 1 and 2 of 40_hash_splitter.md, assumption log entry 2). -/
def Obligations.ScheduleRecurrence : Prop :=
  ∀ block : Bytes, (schedule block).length = 64 ∧
    (∀ t < 16, ((schedule block).getD t 0).toNat = fold ((block.drop (4 * t)).take 4)) ∧
    (∀ t : Nat, 16 ≤ t → t ≤ 63 → (schedule block).getD t 0 =
      ssig1 ((schedule block).getD (t - 2) 0) + (schedule block).getD (t - 7) 0 +
        ssig0 ((schedule block).getD (t - 15) 0) + (schedule block).getD (t - 16) 0)

/-- R16: the 32-bit operations as arithmetic on naturals, AND and exclusive OR bit by bit. -/
def Obligations.WordOperations : Prop :=
  ∀ (x y : Word), (x + y).toNat = (x.toNat + y.toNat) % 2 ^ 32 ∧ (~~~x).toNat = 2 ^ 32 - 1 - x.toNat ∧
    (∀ i : Nat, (x &&& y).toNat.testBit i = (x.toNat.testBit i && y.toNat.testBit i) ∧
      (x ^^^ y).toNat.testBit i = (x.toNat.testBit i ^^ y.toNat.testBit i)) ∧
    ∀ n : Nat, (shr x n).toNat = x.toNat / 2 ^ n ∧
      (0 < n → n < 32 → (rotr x n).toNat = (x.toNat / 2 ^ n + x.toNat * 2 ^ (32 - n)) % 2 ^ 32)

/-- The bit functions of the hash, bit by bit: each bit of `x` chooses the bit of `y` or of `z` in `Ch`, each bit of
`Maj` is the majority of the three, and bit `i` of a diffusion function is the exclusive OR of the bits of `x` that its
three rotations and shifts bring there (a shift brings zeros). The names are the source's, the formulas and the amounts
the spec supplies from general knowledge (section 2 of 40_hash_splitter.md, assumption log entry 2). -/
def Obligations.ChooseAndMajority : Prop :=
  ∀ (x y z : Word) (i : Nat),
    (ch x y z).getLsbD i = (if x.getLsbD i then y.getLsbD i else z.getLsbD i) ∧
    (maj x y z).getLsbD i =
      decide (2 ≤ (x.getLsbD i).toNat + (y.getLsbD i).toNat + (z.getLsbD i).toNat) ∧
    (i < 32 →
      (bsig0 x).getLsbD i =
        (x.getLsbD ((i + 2) % 32) ^^ x.getLsbD ((i + 13) % 32) ^^ x.getLsbD ((i + 22) % 32)) ∧
      (bsig1 x).getLsbD i =
        (x.getLsbD ((i + 6) % 32) ^^ x.getLsbD ((i + 11) % 32) ^^ x.getLsbD ((i + 25) % 32)) ∧
      (ssig0 x).getLsbD i =
        (x.getLsbD ((i + 7) % 32) ^^ x.getLsbD ((i + 18) % 32) ^^ (decide (i + 3 < 32) && x.getLsbD (i + 3))) ∧
      (ssig1 x).getLsbD i =
        (x.getLsbD ((i + 17) % 32) ^^ x.getLsbD ((i + 19) % 32) ^^ (decide (i + 10 < 32) && x.getLsbD (i + 10))))

/-- The split of every message, from its bytes, and the parity of the two paths. With `P` the padded message and `N` its
blocks: block `j` is the bytes `P[64j : 64j+64]`; the chaining state starts at IV; each block runs 64 rounds from it
with its schedule, and the chaining step adds the result lane by lane; the witness is the state before the last block,
the state after 63 of its rounds, and the word and the constant of the omitted round; the digest is the last chaining
state, lane after lane in big-endian bytes (R101 to R103). Then the omitted round takes the witness to the state after
all 64 rounds, the replay of the witness is the digest, and FRV.VERIFY accepts it (the spec's own inference R107). IV,
the round and the order of words and lanes are general knowledge (R93, R94, R99, R100; assumption log entry 2). The
schedule is ScheduleRecurrence's, the constants SplitWitnessFacts's, the bit functions ChooseAndMajority's, the padding
PaddingReachesBlockBoundary's. -/
def Obligations.SplitWitnessVerifies : Prop :=
  ∀ msg : Bytes,
    let P := pad msg
    let N := blockCount msg.length
    let H := chaining P
    let W := fun j : Nat => schedule (blockAt P j)
    let st := fun j : Nat => hashRounds (H j) (W j)
    (∀ j < N, (blockAt P j).length = 64 ∧ ∀ k < 64, (blockAt P j)[k]? = P[64 * j + k]?) ∧
    H 0 = ⟨0x6a09e667, 0xbb67ae85, 0x3c6ef372, 0xa54ff53a, 0x510e527f, 0x9b05688c, 0x1f83d9ab, 0x5be0cd19⟩ ∧
    (∀ j < N, st j 0 = H j ∧
      (∀ t ≤ 63,
        let x := st j t
        let t1 := x.h + bsig1 x.e + ch x.e x.f x.g + roundConstant t + (W j).getD t 0
        let t2 := bsig0 x.a + maj x.a x.b x.c
        st j (t + 1) = ⟨t1 + t2, x.a, x.b, x.c, x.d + t1, x.e, x.f, x.g⟩) ∧
      (let z := st j 64
       H (j + 1) = ⟨(H j).a + z.a, (H j).b + z.b, (H j).c + z.c, (H j).d + z.d,
        (H j).e + z.e, (H j).f + z.f, (H j).g + z.g, (H j).h + z.h⟩)) ∧
    splitWitness msg = ⟨st (N - 1) 63, H (N - 1), (W (N - 1)).getD 63 0, roundConstant 63⟩ ∧
    (splitDigest msg).bytes =
      ([(H N).a, (H N).b, (H N).c, (H N).d, (H N).e, (H N).f, (H N).g, (H N).h].flatMap fun x => be 4 x.toNat) ∧
    hashRound (splitWitness msg).pen (splitWitness msg).rc (splitWitness msg).mw = st (N - 1) 64 ∧
    replay (splitWitness msg) = splitDigest msg ∧
    Accepts (splitWitness msg) (splitDigest msg)

/-- The chaining state and the round constant in every witness of HS.SPLIT, with their numbers: `init` is what the blocks
before the last, each compressed in full, make of IV (R101, R102), IV itself where there are none, which is for the messages
of at most 55 bytes; `rc` is the last round constant; and the 64 round constants are the spec's, row by row.
The values of IV and of the constants are general knowledge (R94, R95; assumption log entry 2); that `rc` is always
`c67178f2` is of the spec's own inference R108. -/
def Obligations.SplitWitnessFacts : Prop :=
  let IV : CompressionState :=
    ⟨0x6a09e667, 0xbb67ae85, 0x3c6ef372, 0xa54ff53a, 0x510e527f, 0x9b05688c, 0x1f83d9ab, 0x5be0cd19⟩
  (∀ msg : Bytes,
    (splitWitness msg).rc = 0xc67178f2#32 ∧
    (splitWitness msg).init =
      (List.range (blockCount msg.length - 1)).foldl (fun H j =>
        let z := hashRounds H (schedule (blockAt (pad msg) j)) 64
        ⟨H.a + z.a, H.b + z.b, H.c + z.c, H.d + z.d, H.e + z.e, H.f + z.f, H.g + z.g, H.h + z.h⟩) IV ∧
    (msg.length ≤ 55 ↔ blockCount msg.length = 1) ∧
    (msg.length ≤ 55 → (splitWitness msg).init = IV)) ∧
  (List.range 64).map roundConstant = List.flatten
    ([[0x428a2f98, 0x71374491, 0xb5c0fbcf, 0xe9b5dba5, 0x3956c25b, 0x59f111f1, 0x923f82a4, 0xab1c5ed5],
      [0xd807aa98, 0x12835b01, 0x243185be, 0x550c7dc3, 0x72be5d74, 0x80deb1fe, 0x9bdc06a7, 0xc19bf174],
      [0xe49b69c1, 0xefbe4786, 0x0fc19dc6, 0x240ca1cc, 0x2de92c6f, 0x4a7484aa, 0x5cb0a9dc, 0x76f988da],
      [0x983e5152, 0xa831c66d, 0xb00327c8, 0xbf597fc7, 0xc6e00bf3, 0xd5a79147, 0x06ca6351, 0x14292967],
      [0x27b70a85, 0x2e1b2138, 0x4d2c6dfc, 0x53380d13, 0x650a7354, 0x766a0abb, 0x81c2c92e, 0x92722c85],
      [0xa2bfe8a1, 0xa81a664b, 0xc24b8b70, 0xc76c51a3, 0xd192e819, 0xd6990624, 0xf40e3585, 0x106aa070],
      [0x19a4c116, 0x1e376c08, 0x2748774c, 0x34b0bcb5, 0x391c0cb3, 0x4ed8aa4a, 0x5b9cca4f, 0x682e6ff3],
      [0x748f82ee, 0x78a5636f, 0x84c87814, 0x8cc70208, 0x90befffa, 0xa4506ceb, 0xbef9a3f7, 0xc67178f2]] : List (List Word))

/-- The pseudo-command HS.CHECK: for every message, the host that sends HS.SPLIT and then FRV.VERIFY with the results
gets an OK response at the end, and BANK is as it was (R79). How the host binds the results to its variables and reads
them back is the model's choice (assumption log entry 9). -/
def Obligations.HsCheckAlwaysAccepts : Prop :=
  ∀ (msg : Bytes) (h : HostRun) (name : String), msg.length ≤ Config.maxMsgBytes →
    h.vars.lookup name = some (.bytes msg) →
    ∃ (ls : List Line) (h' : HostRun), expand .hsCheck [] [.var name] = some ls ∧
      runSequence ls h = some h' ∧ h'.last = [0x00#8, 0x00#8] ∧ h'.block.bank = h.block.bank

/-! ### FRV: FRV.VERIFY -/

/-- R125: FRV.VERIFY answers OK with no payload when the 32 bytes of the candidate digest are the claimed ones and
MISMATCH/DIGEST otherwise; its packet is 0x20, the 18 words of the witness in the order of R64, each four big-endian
bytes, and the 32 bytes of the digest; it touches no state. -/
def Obligations.FrvVerifyAnswers : Prop :=
  ∀ (w : RoundWitness) (d : Bytes32) (s : State),
    let words : List Word := [w.pen.a, w.pen.b, w.pen.c, w.pen.d, w.pen.e, w.pen.f, w.pen.g, w.pen.h,
      w.init.a, w.init.b, w.init.c, w.init.d, w.init.e, w.init.f, w.init.g, w.init.h, w.mw, w.rc]
    encode (.frvVerify w d) = 0x20#8 :: ((words.flatMap fun x => be 4 x.toNat) ++ d.bytes) ∧
    exec (.frvVerify w d) s =
      .next (s.give (if (replay w).bytes = d.bytes then [0x00#8, 0x00#8] else [0x02#8, 0x01#8]))

/-- The candidate digest lane by lane: the four big-endian bytes of each word `init[i] +32 new[i]`, with `new` the
omitted round of R121 from `T1` and `T2` (R121, R122, R123). -/
def Obligations.CandidateDigestLanes : Prop :=
  ∀ w : RoundWitness,
    let t1 := w.pen.h + bsig1 w.pen.e + ch w.pen.e w.pen.f w.pen.g + w.rc + w.mw
    let t2 := bsig0 w.pen.a + maj w.pen.a w.pen.b w.pen.c
    (replay w).bytes =
      [w.init.a + (t1 + t2), w.init.b + w.pen.a, w.init.c + w.pen.b, w.init.d + w.pen.c,
       w.init.e + (w.pen.d + t1), w.init.f + w.pen.e, w.init.g + w.pen.f, w.init.h + w.pen.g].flatMap
        fun x => be 4 x.toNat

/-- Two witnesses that differ only in `mw` and `rc` and have the same `rc +32 mw` are both accepted or both rejected,
against every digest (the spec's own inference, R128 part 1). -/
def Obligations.OnlyTheSumOfMwAndRcCounts : Prop :=
  ∀ (w : RoundWitness) (mw rc : Word) (d : Bytes32), rc + mw = w.rc + w.mw →
    (Accepts { w with mw := mw, rc := rc } d ↔ Accepts w d) ∧
    (Rejects { w with mw := mw, rc := rc } d ↔ Rejects w d)

/-- For any digest and any `pen`, `mw` and `rc` there is exactly one `init` that FRV.VERIFY accepts: acceptance alone
does not show that the digest is the hash of anything (the spec's own inference, R128 part 2). -/
def Obligations.EveryDigestHasAWitness : Prop :=
  ∀ (pen : CompressionState) (mw rc : Word) (d : Bytes32),
    ∃! init : CompressionState, Accepts ⟨pen, init, mw, rc⟩ d

/-- From an accepted witness, changing exactly one of its 18 words rejects, and so does changing any byte of the
claimed digest (the spec's own inference R129 from R121 to R123). -/
def Obligations.SingleFieldChangeRejects : Prop :=
  ∀ (w : RoundWitness) (d : Bytes32), Accepts w d →
    (∀ (w' : RoundWitness) (k : Nat), (witnessWords w)[k]? ≠ (witnessWords w')[k]? →
      (∀ j : Nat, j ≠ k → (witnessWords w)[j]? = (witnessWords w')[j]?) → Rejects w' d) ∧
    (∀ d' : Bytes32, d' ≠ d → Rejects w d')

/-! ### CC: the commitment codec -/

/-- R140: CC.FROMLIMBS answers the sixteen bytes of each limb when both are below `2^128`, LIMB_HIGH when the high one
is not, LIMB_LOW when only the low one is not, and touches no state. SELFCHECK is never the answer. -/
def Obligations.CcFromLimbsAnswers : Prop :=
  ∀ (high low : Int256) (s : State),
    encode (.ccFromLimbs high low) = 0x30#8 :: (be 32 high.toNat ++ be 32 low.toNat) ∧
    exec (.ccFromLimbs high low) s = .next (s.give (
      if 2 ^ 128 ≤ high.toNat then [0x01#8, 0x01#8]
      else if 2 ^ 128 ≤ low.toNat then [0x01#8, 0x02#8]
      else [0x00#8, 0x00#8] ++ be 16 high.toNat ++ be 16 low.toNat))

/-- R141: CC.TOLIMBS answers the two halves of the instance as INT256 fields, whose upper 16 bytes are zero, and
touches no state. -/
def Obligations.CcToLimbsAnswers : Prop :=
  ∀ (inst : Bytes32) (s : State),
    encode (.ccToLimbs inst) = 0x31#8 :: inst.bytes ∧
    exec (.ccToLimbs inst) s = .next (s.give ([0x00#8, 0x00#8] ++
      List.replicate 16 0x00#8 ++ inst.bytes.take 16 ++ List.replicate 16 0x00#8 ++ inst.bytes.drop 16))

/-- CC.FROMPOINT answers the 32 big-endian bytes of each coordinate (R138) and touches no state. That these are the 64
bytes of its operands is the spec's own inference, R142 from R138 and R47. -/
def Obligations.CcFromPointAnswers : Prop :=
  ∀ (x y : Int256) (s : State),
    encode (.ccFromPoint x y) = 0x32#8 :: (be 32 x.toNat ++ be 32 y.toNat) ∧
    exec (.ccFromPoint x y) s = .next (s.give ([0x00#8, 0x00#8] ++ be 32 x.toNat ++ be 32 y.toNat))

/-- R143: CC.TOPOINT answers the two integers its instances fold to, as the same 64 bytes, and touches no state. -/
def Obligations.CcToPointAnswers : Prop :=
  ∀ (bx byy : Bytes32) (s : State),
    encode (.ccToPoint bx byy) = 0x33#8 :: (bx.bytes ++ byy.bytes) ∧
    toPoint bx byy = (fold bx.bytes, fold byy.bytes) ∧
    exec (.ccToPoint bx byy) s = .next (s.give ([0x00#8, 0x00#8] ++ bx.bytes ++ byy.bytes))

/-- The codec undoes itself in both directions, for limbs and for points, and refuses a limb at the boundary (the
spec's own inference R144 from R136 to R139). -/
def Obligations.CodecRoundTrips : Prop :=
  (∀ high low : Nat, high < 2 ^ 128 → low < 2 ^ 128 →
    ∃ inst, fromLimbs high low = .ok inst ∧ toLimbs inst = (high, low)) ∧
  (∀ inst : Bytes32, fromLimbs (toLimbs inst).1 (toLimbs inst).2 = .ok inst) ∧
  (∀ x y : Nat, x < 2 ^ 256 → y < 2 ^ 256 → toPoint (fromPoint x y).1 (fromPoint x y).2 = (x, y)) ∧
  (∀ bx byy : Bytes32, fromPoint (toPoint bx byy).1 (toPoint bx byy).2 = (bx, byy)) ∧
  fromLimbs (2 ^ 128) 0 = .error .limbHigh ∧
  (∃ inst, fromLimbs (2 ^ 128 - 1) (2 ^ 128 - 1) = .ok inst ∧ toLimbs inst = (2 ^ 128 - 1, 2 ^ 128 - 1))

/-- The four-limb form of a point: the host that sends CC.PACKPT and then CC.UNPACKPT of what it got has the point
back, each coordinate is `high * 2^128 + low` of its limbs, and BANK is as it was (R79; the spec's own inference
R145). How the host binds the results to its variables, `bx` and `by` bound twice with the latest value read, is the
model's choice (assumption log entry 9). -/
def Obligations.PackedPointComesBack : Prop :=
  ∀ (x y : Int256) (h : HostRun), h.vars.lookup "x" = some (.int x) → h.vars.lookup "y" = some (.int y) →
    ∃ (pack unpack : List Line) (h1 h2 : HostRun) (xh xl yh yl : Int256),
      expand .ccPackPt ["xh", "xl", "yh", "yl"] [.var "x", .var "y"] = some pack ∧
      expand .ccUnpackPt ["x2", "y2"] [.var "xh", .var "xl", .var "yh", .var "yl"] = some unpack ∧
      runSequence pack h = some h1 ∧ runSequence unpack h1 = some h2 ∧
      h1.vars.lookup "xh" = some (.int xh) ∧ h1.vars.lookup "xl" = some (.int xl) ∧
      h1.vars.lookup "yh" = some (.int yh) ∧ h1.vars.lookup "yl" = some (.int yl) ∧
      x.toNat = xh.toNat * 2 ^ 128 + xl.toNat ∧ y.toNat = yh.toNat * 2 ^ 128 + yl.toNat ∧
      h2.vars.lookup "x2" = some (.int x) ∧ h2.vars.lookup "y2" = some (.int y) ∧
      h2.last.head? = some 0x00#8 ∧ h2.block.bank = h.block.bank

/-! ### SCB: the counter bank -/

/-- The bank as an integer is its headroom above its 25 counters, each a 10-bit slot, slot 0 the least significant; in
the packet form `c[0]` is bits 1:0 of byte 30 and all of byte 31 (the spec's own inference R48 from R22 and R47). -/
def Obligations.BankIsItsSlots : Prop :=
  ∀ bank : Bank,
    bank.toNat = headroom bank * 2 ^ 250 + ((List.range 25).map fun i => slot bank i * 2 ^ (10 * i)).sum ∧
    (∀ i : Nat, slot bank i ≤ 1023) ∧
    slot bank 0 = (((be 32 bank.toNat).getD 30 0).toNat % 4) * 256 + ((be 32 bank.toNat).getD 31 0).toNat

/-- R22: `c[i]` is the bits `10i+9` to `10i` of BANK, its bit 0 at bit `10i`, an integer of at most 1023; a write of it
puts the value there and changes no other bit of BANK. -/
def Obligations.CounterWriteChangesOnlyItsBits : Prop :=
  ∀ (bank : Bank) (i v : Nat), i ≤ 24 → v ≤ 1023 →
    slot bank i ≤ 1023 ∧ (∀ j : Nat, (slot bank i).testBit j = (decide (j ≤ 9) && bank.getLsbD (10 * i + j))) ∧
    slot (writeSlot bank i v) i = v ∧
    (writeSlot bank i v).toNat = bank.toNat - slot bank i * 2 ^ (10 * i) + v * 2 ^ (10 * i) ∧
    ∀ k : Nat, ¬ (10 * i ≤ k ∧ k ≤ 10 * i + 9) → (writeSlot bank i v).getLsbD k = bank.getLsbD k

/-- The scans over all 25 slots give what the direct access gives: reading is `slot(BANK, id)`, writing is the write of
R22 (R162, R163, R176). -/
def Obligations.ScansAgreeWithDirectAccess : Prop :=
  ∀ (bank : Bank) (id v : Nat), id ≤ 24 → v ≤ 1023 →
    getCounter bank id = .ok (slot bank id) ∧ setCounter bank id v = .ok (writeSlot bank id v)

/-- R168: SCB.LOAD writes all 254 bits of BANK, or answers BANK_WIDTH and leaves BANK when the scalar does not fit;
nothing is truncated. -/
def Obligations.ScbLoadAnswers : Prop :=
  ∀ (v : Int256) (s : State),
    encode (.scbLoad v) = 0x40#8 :: be 32 v.toNat ∧
    (v.toNat < 2 ^ 254 → ∃ b : Bank, b.toNat = v.toNat ∧
      exec (.scbLoad v) s = .next ((s.writeBank b).give [0x00#8, 0x00#8])) ∧
    (2 ^ 254 ≤ v.toNat → exec (.scbLoad v) s = .next (s.give [0x01#8, 0x05#8]))

/-- R169: SCB.STORE answers BANK whole as an INT256 and writes nothing; after reset that is 0. -/
def Obligations.ScbStoreAnswers : Prop :=
  encode .scbStore = [0x41#8] ∧
  (∀ s : State, exec .scbStore s = .next (s.give ([0x00#8, 0x00#8] ++ be 32 s.bank.toNat))) ∧
  exec .scbStore State.reset = .next (State.reset.give ([0x00#8, 0x00#8] ++ List.replicate 32 0x00#8))

/-- R170: SCB.GET answers the counter as an INT256, or COUNTER_ID for an id above 24, all 256 bits of it compared; it
writes nothing. -/
def Obligations.ScbGetAnswers : Prop :=
  ∀ (id : Int256) (s : State),
    encode (.scbGet id) = 0x42#8 :: be 32 id.toNat ∧
    exec (.scbGet id) s = .next (s.give (
      if 24 < id.toNat then [0x03#8, 0x01#8]
      else [0x00#8, 0x00#8] ++ be 32 (s.bank.toNat / 2 ^ (10 * id.toNat) % 1024)))

/-- R171: SCB.SET puts the value in the counter and leaves every other counter and the headroom; the id is checked
before the value, and an error leaves everything. -/
def Obligations.ScbSetAnswers : Prop :=
  ∀ (id newValue : Int256) (s : State),
    encode (.scbSet id newValue) = 0x43#8 :: (be 32 id.toNat ++ be 32 newValue.toNat) ∧
    (24 < id.toNat → exec (.scbSet id newValue) s = .next (s.give [0x03#8, 0x01#8])) ∧
    (id.toNat ≤ 24 → 1023 < newValue.toNat →
      exec (.scbSet id newValue) s = .next (s.give [0x01#8, 0x03#8])) ∧
    (id.toNat ≤ 24 → newValue.toNat ≤ 1023 → ∃ b : Bank,
      exec (.scbSet id newValue) s = .next ((s.writeBank b).give [0x00#8, 0x00#8]) ∧
      slot b id.toNat = newValue.toNat ∧ headroom b = headroom s.bank ∧
      ∀ i : Nat, i ≤ 24 → i ≠ id.toNat → slot b i = slot s.bank i)

/-- R172: SCB.INC adds exactly 1 to the counter and leaves the rest of BANK; at 1023 it answers SATURATED and never
wraps or carries; the id is checked first. -/
def Obligations.ScbIncAnswers : Prop :=
  ∀ (id : Int256) (s : State),
    encode (.scbInc id) = 0x44#8 :: be 32 id.toNat ∧
    (24 < id.toNat → exec (.scbInc id) s = .next (s.give [0x03#8, 0x01#8])) ∧
    (id.toNat ≤ 24 → slot s.bank id.toNat = 1023 → exec (.scbInc id) s = .next (s.give [0x01#8, 0x04#8])) ∧
    (id.toNat ≤ 24 → slot s.bank id.toNat ≠ 1023 → ∃ b : Bank,
      exec (.scbInc id) s = .next ((s.writeBank b).give [0x00#8, 0x00#8]) ∧
      slot b id.toNat = slot s.bank id.toNat + 1 ∧ b.toNat = s.bank.toNat + 2 ^ (10 * id.toNat) ∧
      headroom b = headroom s.bank ∧ ∀ i : Nat, i ≤ 24 → i ≠ id.toNat → slot b i = slot s.bank i)

/-- R173: SCB.ISFULL answers one byte, 0x01 exactly when the counter is 1023, or COUNTER_ID for an id above 24; it
writes nothing. -/
def Obligations.ScbIsFullAnswers : Prop :=
  ∀ (id : Int256) (s : State),
    encode (.scbIsFull id) = 0x45#8 :: be 32 id.toNat ∧
    exec (.scbIsFull id) s = .next (s.give (
      if 24 < id.toNat then [0x03#8, 0x01#8]
      else if slot s.bank id.toNat = 1023 then [0x00#8, 0x00#8, 0x01#8] else [0x00#8, 0x00#8, 0x00#8]))

/-- R174: SCB.TOTAL answers the exact sum of the 25 counters, at most 25575, with the headroom ignored; it writes
nothing. -/
def Obligations.ScbTotalAnswers : Prop :=
  encode .scbTotal = [0x46#8] ∧ ∀ s : State, ∃ total : Nat,
    exec .scbTotal s = .next (s.give ([0x00#8, 0x00#8] ++ be 32 total)) ∧
    total = ((List.range 25).map (slot s.bank)).sum ∧ total ≤ 25575 ∧
    ∀ b : Bank, b.toNat % 2 ^ 250 = s.bank.toNat % 2 ^ 250 → totalCount b = total

/-- R175: SCB.FINDMAX answers the largest counter and the lowest index that holds it, with the headroom ignored; it
writes nothing. -/
def Obligations.ScbFindMaxAnswers : Prop :=
  encode .scbFindMax = [0x47#8] ∧ ∀ s : State, ∃ index value : Nat,
    exec .scbFindMax s = .next (s.give ([0x00#8, 0x00#8] ++ be 32 index ++ be 32 value)) ∧
    index ≤ 24 ∧ value = slot s.bank index ∧ (∀ i : Nat, i ≤ 24 → slot s.bank i ≤ value) ∧
    (∀ i : Nat, i < index → slot s.bank i < value) ∧
    ∀ b : Bank, b.toNat % 2 ^ 250 = s.bank.toNat % 2 ^ 250 → findMax b = (index, value)

/-- A command that writes one counter leaves every other counter and what reading it gives (the spec's own inference
R177 from R163 and R164). -/
def Obligations.SlotsAreIndependent : Prop :=
  ∀ (i : Instr) (id : Int256) (s t : State),
    (i = .scbInc id ∨ ∃ newValue : Int256, i = .scbSet id newValue) → exec i s = .next t →
    ∀ other : Nat, other ≤ 24 → other ≠ id.toNat →
      getCounter t.bank other = getCounter s.bank other ∧ slot t.bank other = slot s.bank other

/-- R178: SCB.LOAD sets the headroom from its operand, SCB.SET and SCB.INC keep it, SCB.STORE returns it, and the
answers of SCB.GET, SCB.ISFULL, SCB.TOTAL and SCB.FINDMAX are the same for any two banks that differ only in it; any of
its 16 values is legal. -/
def Obligations.HeadroomIsCarried : Prop :=
  (∀ (v : Int256) (s : State), v.toNat < 2 ^ 254 → ∃ b : Bank,
    exec (.scbLoad v) s = .next ((s.writeBank b).give [0x00#8, 0x00#8]) ∧ headroom b = v.toNat / 2 ^ 250) ∧
  (∀ (i : Instr) (s t : State), exec i s = .next t → (∀ v, i ≠ .scbLoad v) →
    headroom t.bank = headroom s.bank) ∧
  (∀ (s : State), ∃ v : Nat, v / 2 ^ 250 = headroom s.bank ∧
    exec .scbStore s = .next (s.give ([0x00#8, 0x00#8] ++ be 32 v))) ∧
  (∀ (i : Instr) (s : State) (b : Bank), b.toNat % 2 ^ 250 = s.bank.toNat % 2 ^ 250 →
    (i = .scbTotal ∨ i = .scbFindMax ∨ ∃ id : Int256, i = .scbGet id ∨ i = .scbIsFull id) →
    ∃ r : Packet, exec i s = .next (s.give r) ∧ exec i (s.writeBank b) = .next ((s.writeBank b).give r))

/-- The spec's own inference R56: SCB.LOAD and SCB.SET twice leave the BANK that once leaves and answer the same both
times, and a read command answers the same again and leaves BANK. -/
def Obligations.LoadAndSetAreIdempotent : Prop :=
  (∀ (i : Instr) (s t : State), ((∃ v, i = .scbLoad v) ∨ ∃ id v, i = .scbSet id v) → exec i s = .next t →
    ∃ r : Packet, t.sent = s.sent ++ [r] ∧ exec i t = .next (t.give r)) ∧
  (∀ (i : Instr) (s t : State),
    (i = .scbStore ∨ i = .scbTotal ∨ i = .scbFindMax ∨ ∃ id, i = .scbGet id ∨ i = .scbIsFull id) →
    exec i s = .next t →
    ∃ r : Packet, t.bank = s.bank ∧ t.sent = s.sent ++ [r] ∧ exec i t = .next (t.give r))

/-- The whole view and the counter view agree (the spec's own inference R49): after SCB.SET, SCB.STORE returns a
scalar whose bits of the slot are the value and whose other bits are what they were. -/
def Obligations.StoreSeesWhatSetWrote : Prop :=
  ∀ (id newValue : Int256) (s t : State), id.toNat ≤ 24 → newValue.toNat ≤ 1023 →
    exec (.scbSet id newValue) s = .next t →
    ∃ v : Nat, exec .scbStore t = .next (t.give ([0x00#8, 0x00#8] ++ be 32 v)) ∧
      v / 2 ^ (10 * id.toNat) % 1024 = newValue.toNat ∧
      ∀ k : Nat, ¬ (10 * id.toNat ≤ k ∧ k ≤ 10 * id.toNat + 9) → v.testBit k = s.bank.toNat.testBit k

/-- The spec's own inference R179: from an all-zero bank, 1023 increments of counter 0 succeed one after another, `n`
of them leave `n`; then the counter is full, the next increment fails and leaves BANK at 0x3ff, every other counter is
0, the total is 1023 and the maximum is `(0, 1023)`. -/
def Obligations.SaturationOfCounterZero : Prop :=
  ∀ s : State, s.bank = 0 →
    (∀ n : Nat, n ≤ 1023 →
      Sys2Proof.core.run n { s with port := List.replicate n (.packet (encode (.scbInc 0))) ++ s.port } =
        .next { bank := BitVec.ofNat 254 n, port := s.port
                sent := s.sent ++ List.replicate n [0x00#8, 0x00#8] }) ∧
    (∀ t : State, t.bank = 0x3ff →
      exec (.scbInc 0) t = .next (t.give [0x01#8, 0x04#8]) ∧
      exec (.scbIsFull 0) t = .next (t.give [0x00#8, 0x00#8, 0x01#8]) ∧
      (∀ id : Nat, 1 ≤ id → id ≤ 24 → getCounter t.bank id = .ok 0) ∧
      totalCount t.bank = 1023 ∧ findMax t.bank = (0, 1023))
end

