-- ==== Sys2Proof/Laws/State.lean ====
section
/-! SUPPORT. The small lemmas of `State`: one per field per update, and what each shared operation answers, so that no
later proof unfolds a record update or an answer. -/

namespace Sys2Proof.Machine

@[simp] theorem give_bank (s : State) (r : Packet) : (s.give r).bank = s.bank := rfl
@[simp] theorem give_port (s : State) (r : Packet) : (s.give r).port = s.port := rfl
@[simp] theorem give_sent (s : State) (r : Packet) : (s.give r).sent = s.sent ++ [r] := rfl

@[simp] theorem writeBank_bank (s : State) (b : Bank) : (s.writeBank b).bank = b := rfl
@[simp] theorem writeBank_port (s : State) (b : Bank) : (s.writeBank b).port = s.port := rfl
@[simp] theorem writeBank_sent (s : State) (b : Bank) : (s.writeBank b).sent = s.sent := rfl

@[simp] theorem took_bank (s : State) (rest : List Input) : (s.took rest).bank = s.bank := rfl
@[simp] theorem took_port (s : State) (rest : List Input) : (s.took rest).port = rest := rfl
@[simp] theorem took_sent (s : State) (rest : List Input) : (s.took rest).sent = s.sent := rfl

@[simp] theorem resetBlock_bank (s : State) : s.resetBlock.bank = 0 := rfl
@[simp] theorem resetBlock_port (s : State) : s.resetBlock.port = s.port := rfl
@[simp] theorem resetBlock_sent (s : State) : s.resetBlock.sent = s.sent := rfl

@[simp] theorem offer_bank (s : State) (p : Packet) : (s.offer p).bank = s.bank := rfl
@[simp] theorem offer_port (s : State) (p : Packet) : (s.offer p).port = .packet p :: s.port := rfl
@[simp] theorem offer_sent (s : State) (p : Packet) : (s.offer p).sent = s.sent := rfl

/-- Taking the packet that was just offered leaves the state as it was. -/
@[simp] theorem offer_took (s : State) (p : Packet) : (s.offer p).took s.port = s := rfl

/-- Writing the bank a state has changes nothing. -/
@[simp] theorem writeBank_self (s : State) : s.writeBank s.bank = s := rfl

@[simp] theorem withFetchWord_bank (s : State) (n w : Nat) : (s.withFetchWord n w).bank = s.bank := rfl
@[simp] theorem withFetchWord_sent (s : State) (n w : Nat) : (s.withFetchWord n w).sent = s.sent := rfl
@[simp] theorem withFetchWord_port (s : State) (n w : Nat) :
    (s.withFetchWord n w).port = .packet (tablePacket n w) :: s.port := rfl

/-- All that an OK answer can do: the next state is the state with one more response, OK and the payload (R70). -/
theorem respondOK_spec {payload : Bytes} {s t : State} (h : respondOK payload s = .next t) :
    t = s.give (okResponse payload) := by
  simpa [respondOK] using h.symm

/-- All that raising an error can do: the next state is the state with one more response of two bytes (R199). -/
theorem raise_spec {e : Error} {s t : State} (h : raise e s = .next t) :
    t = s.give [statusCode (errorStatus e), errorDetail e] := by
  simpa [raise, errorResponse] using h.symm

/-- The bytes of an OK response. -/
theorem okResponse_eq (payload : Bytes) : okResponse payload = 0x00#8 :: 0x00#8 :: payload := rfl

/-- No error's response begins with the OK status (R203). -/
theorem errorResponse_head_ne_ok (e : Error) : (errorResponse e).head? ≠ some 0x00#8 := by
  cases e with
  | illegal why => cases why <;> decide
  | _ => decide

/-- An error response is two bytes (R70). -/
@[simp] theorem errorResponse_length (e : Error) : (errorResponse e).length = 2 := rfl

/-- All that a step can do, by what stands at the head of the port (R60, R215, R217). -/
theorem step_cases (s : State) :
    (s.port = [] ∧ step s = .next s) ∨
    (∃ p rest i, s.port = .packet p :: rest ∧ decode p = .ok i ∧ step s = exec i (s.took rest)) ∨
    (∃ p rest why, s.port = .packet p :: rest ∧ decode p = .error why ∧
      step s = .next ((s.took rest).give (errorResponse (.illegal why)))) ∨
    (∃ rest, (s.port = .reset :: rest ∨ ∃ p, s.port = .resetDuring p :: rest) ∧
      step s = .next ((s.took rest).resetBlock)) := by
  unfold step
  split
  · exact .inl ⟨‹_›, rfl⟩
  · next p rest hp =>
    split
    · next i hi => exact .inr (.inl ⟨p, rest, i, hp, hi, rfl⟩)
    · next why hw => exact .inr (.inr (.inl ⟨p, rest, why, hp, hw, rfl⟩))
  · next rest hp => exact .inr (.inr (.inr ⟨rest, .inl hp, rfl⟩))
  · next p rest hp => exact .inr (.inr (.inr ⟨rest, .inr ⟨p, hp⟩, rfl⟩))

end Sys2Proof.Machine
end

