-- ==== Sys2Proof/Laws/Assembler.lean ====
section
/-! SUPPORT. The host's side: the command of a line whose operands are byte strings, what sending one command to the
block can do, and what running one line can do (R60, R77). -/

namespace Sys2Proof.Machine

@[simp] theorem asBytes32_bytes (x : Bytes32) : asBytes32 x.bytes = some x := by
  simp [asBytes32, x.size]

/-- The command of an FRV.VERIFY line (R77). -/
@[simp] theorem assemble_frvVerify (w d : Bytes) : assemble .frvVerify [.bytes w, .bytes d] =
    if w.length = 72 then (asBytes32 d).map (.frvVerify (witnessOf w)) else none := rfl

/-- The command of a CC.TOLIMBS line (R77). -/
@[simp] theorem assemble_ccToLimbs (b : Bytes) :
    assemble .ccToLimbs [.bytes b] = (asBytes32 b).map .ccToLimbs := rfl

/-- The command of a CC.TOPOINT line (R77). -/
@[simp] theorem assemble_ccToPoint (bx byy : Bytes32) :
    assemble .ccToPoint [.bytes bx.bytes, .bytes byy.bytes] = some (.ccToPoint bx byy) := by
  have h : assemble .ccToPoint [.bytes bx.bytes, .bytes byy.bytes] =
      match asBytes32 bx.bytes, asBytes32 byy.bytes with
      | some x, some y => some (.ccToPoint x y)
      | _, _ => none := rfl
  rw [h, asBytes32_bytes, asBytes32_bytes]

/-- All that sending a packet can do: the step on the packet ends in a state, and the response is the last one that
state holds (R60). -/
theorem sendPacket_spec {p : Packet} {s t : State} {r : Packet} (h : sendPacket p s = some (r, t)) :
    step (s.offer p) = .next t ∧ t.sent.getLast? = some r := by
  unfold sendPacket at h
  split at h
  · next u hu =>
    cases hl : u.sent.getLast? with
    | none => simp [hl] at h
    | some r' =>
      simp only [hl, Option.map_some, Option.some.injEq, Prod.mk.injEq] at h
      obtain ⟨rfl, rfl⟩ := h
      exact ⟨hu, hl⟩
  · cases h
  · cases h

/-- A line whose operands have values, whose command exists and which the block answers: the host afterwards (R77). -/
theorem runLine_eq {l : Line} {h : HostRun} {values : List Value} {i : Instr} {r : Packet} {t : State}
    (hv : l.operands.mapM (operandValue h.vars) = some values) (ha : assemble l.mnemonic values = some i)
    (hs : sendPacket (encode i) h.block = some (r, t)) :
    runLine l h = some
      { vars := (if r.head? = some (statusCode .ok) then l.dests.zip (resultValues i r) else []).reverse ++ h.vars
        block := t, last := r } := by
  simp only [runLine, hv, ha, hs]

end Sys2Proof.Machine
end

