-- ==== Sys2Proof/Laws/Bank.lean ====
section
/-! SUPPORT. The bank as a number in base 1024: what its slots are after a scan, and that the scans of R162 and R163
give the direct read and the direct write (R22, R48, R161, R176). -/

namespace Sys2Proof.Machine

/-- The number whose first `k` slots are `d 0` to `d (k-1)` (R48). -/
def packed (d : Nat → Nat) : Nat → Nat
  | 0 => 0
  | k + 1 => packed d k + d k * 2 ^ (10 * k)

/-- Slots below 1024 fill `k` slots and no more. -/
theorem packed_lt {d : Nat → Nat} (h : ∀ i, d i < 1024) (k : Nat) : packed d k < 2 ^ (10 * k) := by
  induction k with
  | zero => simp [packed]
  | succ k ih =>
    have hk := h k
    have hp : 2 ^ (10 * (k + 1)) = 1024 * 2 ^ (10 * k) := by rw [Nat.mul_succ, pow_add]; ring
    have : (d k + 1) * 2 ^ (10 * k) ≤ 1024 * 2 ^ (10 * k) := Nat.mul_le_mul_right _ hk
    rw [packed, hp]
    linarith [Nat.add_mul (d k) 1 (2 ^ (10 * k))]

/-- Slot `j` of a packed number, whatever stands above it. -/
theorem packed_slot {d : Nat → Nat} (h : ∀ i, d i < 1024) {j k : Nat} (hj : j < k) (high : Nat) :
    (packed d k + high * 2 ^ (10 * k)) / 2 ^ (10 * j) % 1024 = d j := by
  induction k generalizing high with
  | zero => omega
  | succ k ih =>
    have hp : 2 ^ (10 * (k + 1)) = 1024 * 2 ^ (10 * k) := by rw [Nat.mul_succ, pow_add]; ring
    have e : packed d (k + 1) + high * 2 ^ (10 * (k + 1)) = packed d k + (d k + high * 1024) * 2 ^ (10 * k) := by
      rw [packed, hp]; ring
    rw [e]
    rcases Nat.lt_or_eq_of_le (Nat.lt_succ_iff.mp hj) with hlt | rfl
    · exact ih hlt _
    · rw [Nat.add_mul_div_right _ _ (by positivity), Nat.div_eq_of_lt (packed_lt h j), Nat.zero_add,
        Nat.add_mul_mod_self_right, Nat.mod_eq_of_lt (h j)]

/-- A number is its first `k` slots and what stands above them. -/
theorem packed_slots (n k : Nat) :
    packed (fun i => n / 2 ^ (10 * i) % 1024) k + n / 2 ^ (10 * k) * 2 ^ (10 * k) = n := by
  induction k with
  | zero => simp [packed]
  | succ k ih =>
    have hp : 2 ^ (10 * (k + 1)) = 2 ^ (10 * k) * 1024 := by rw [Nat.mul_succ, pow_add]; norm_num
    have hd : n / 2 ^ (10 * (k + 1)) = n / 2 ^ (10 * k) / 1024 := by rw [hp, Nat.div_div_eq_div_mul]
    have hm := Nat.div_add_mod (n / 2 ^ (10 * k)) 1024
    rw [packed, hd, hp]
    calc _ = packed (fun i => n / 2 ^ (10 * i) % 1024) k +
          (1024 * (n / 2 ^ (10 * k) / 1024) + n / 2 ^ (10 * k) % 1024) * 2 ^ (10 * k) := by ring
      _ = n := by rw [hm, ih]

/-- A scan that adds one term per slot is the sum of its terms. -/
theorem foldl_range_add (f : Nat → Nat) (k a : Nat) :
    (List.range k).foldl (fun acc i => acc + f i) a = a + ((List.range k).map f).sum := by
  induction k with
  | zero => simp
  | succ k ih => simp [List.range_succ, List.foldl_append, ih, Nat.add_assoc]

/-- A packed number is the sum of its slots at their places. -/
theorem packed_eq_sum (d : Nat → Nat) (k : Nat) :
    packed d k = ((List.range k).map fun i => d i * 2 ^ (10 * i)).sum := by
  induction k with
  | zero => rfl
  | succ k ih => simp [packed, List.range_succ, ih]

/-- Changing one slot of a packed number changes it by that slot's difference. -/
theorem packed_update (d : Nat → Nat) {j k : Nat} (hj : j < k) (v : Nat) :
    packed (fun i => if j = i then v else d i) k + d j * 2 ^ (10 * j) = packed d k + v * 2 ^ (10 * j) := by
  induction k with
  | zero => omega
  | succ k ih =>
    rcases Nat.lt_or_eq_of_le (Nat.lt_succ_iff.mp hj) with hlt | rfl
    · have := ih hlt
      simp only [packed, if_neg (Nat.ne_of_lt hlt)]
      omega
    · have : ∀ m, m ≤ j → packed (fun i => if j = i then v else d i) m = packed d m := by
        intro m hm
        induction m with
        | zero => rfl
        | succ m ihm => simp [packed, ihm (by omega), show j ≠ m by omega]
      simp [packed, this j (le_refl j)]
      omega

/-! ### Slots and headroom of a bank -/

theorem slot_lt (bank : Bank) (i : Nat) : slot bank i < 1024 := Nat.mod_lt _ (by decide)

/-- The headroom is all that stands above the 25 slots (R21, R23). -/
theorem headroom_eq (bank : Bank) : headroom bank = bank.toNat / 2 ^ 250 := by
  have := bank.isLt
  unfold headroom
  omega

/-- The bank is its 25 slots and its headroom (R48). -/
theorem bank_eq_packed (bank : Bank) : packed (slot bank) 25 + headroom bank * 2 ^ 250 = bank.toNat := by
  rw [headroom_eq]
  exact packed_slots bank.toNat 25

/-- Slot `j` of a bank given by its slots and headroom. -/
theorem slot_of_packed {b : Bank} {d : Nat → Nat} {hr : Nat} (h : ∀ i, d i < 1024)
    (hb : b.toNat = packed d 25 + hr * 2 ^ 250) {j : Nat} (hj : j ≤ 24) : slot b j = d j := by
  unfold slot
  rw [hb]
  exact packed_slot h (by omega : j < 25) hr

/-- The headroom of a bank given by its slots and headroom. -/
theorem headroom_of_packed {b : Bank} {d : Nat → Nat} {hr : Nat} (h : ∀ i, d i < 1024)
    (hb : b.toNat = packed d 25 + hr * 2 ^ 250) : headroom b = hr := by
  rw [headroom_eq, hb, Nat.add_mul_div_right _ _ (by positivity), Nat.div_eq_of_lt (packed_lt h 25), Nat.zero_add]

/-! ### The scans -/

/-- The reading scan gives the slot (R162, R176). -/
theorem scanRead_eq (bank : Bank) {id : Nat} (h : id ≤ 24) : scanRead bank id = slot bank id := by
  unfold scanRead
  rw [foldl_range_add, Nat.zero_add]
  have key : ∀ k, ((List.range k).map fun i => if id = i then slot bank i else 0).sum =
      if id < k then slot bank id else 0 := by
    intro k
    induction k with
    | zero => simp
    | succ k ih =>
      rw [List.range_succ, List.map_append, List.sum_append, ih]
      rcases Nat.lt_trichotomy id k with hk | rfl | hk
      · simp [hk, Nat.ne_of_lt hk, Nat.lt_succ_of_lt hk]
      · simp
      · simp [Nat.ne_of_gt hk, show ¬ id < k by omega, show ¬ id < k + 1 by omega]
  rw [key]
  exact if_pos (Nat.lt_succ_of_le h)

/-- The writing scan is the bank with one slot replaced (R163). -/
theorem scanWrite_eq (bank : Bank) (id v : Nat) :
    scanWrite bank id v = packed (fun i => if id = i then v else slot bank i) 25 + headroom bank * 2 ^ 250 := by
  unfold scanWrite
  rw [foldl_range_add (fun i => (if id = i then v else slot bank i) * 2 ^ (10 * i)), Nat.zero_add, packed_eq_sum]
  rfl

/-- A counter value in bounds leaves every slot of the writing scan in bounds (R163). -/
theorem updated_slot_lt (bank : Bank) (id : Nat) {v : Nat} (hv : v ≤ 1023) (i : Nat) :
    (if id = i then v else slot bank i) < 1024 := by
  split
  · omega
  · exact slot_lt bank i

/-- The writing scan fits the register, so nothing of it is lost (R163, R178). -/
theorem scanWrite_lt (bank : Bank) (id : Nat) {v : Nat} (hv : v ≤ 1023) : scanWrite bank id v < 2 ^ 254 := by
  have h1 := packed_lt (updated_slot_lt bank id hv) 25
  have h2 : headroom bank < 16 := Nat.mod_lt _ (by decide)
  rw [scanWrite_eq]
  omega

/-- All that `getCounter` can do (R162). -/
theorem getCounter_eq (bank : Bank) (id : Nat) :
    getCounter bank id = if id > 24 then .error .counterId else .ok (slot bank id) := by
  unfold getCounter
  split
  · rfl
  · rw [scanRead_eq bank (by omega)]

/-- All that `setCounter` can do: it fails on the id, else on the value, else it gives the bank with that one slot
replaced and the headroom kept (R163). -/
theorem setCounter_spec (bank : Bank) (id v : Nat) :
    (24 < id ∧ setCounter bank id v = .error .counterId) ∨
    (id ≤ 24 ∧ 1023 < v ∧ setCounter bank id v = .error .counterValue) ∨
    (id ≤ 24 ∧ v ≤ 1023 ∧ ∃ b : Bank, setCounter bank id v = .ok b ∧
      b.toNat = packed (fun i => if id = i then v else slot bank i) 25 + headroom bank * 2 ^ 250) := by
  unfold setCounter
  by_cases h1 : id > 24
  · exact .inl ⟨h1, if_pos h1⟩
  · rw [if_neg h1]
    by_cases h2 : v > Config.counterMax
    · exact .inr (.inl ⟨by omega, h2, if_pos h2⟩)
    · rw [if_neg h2]
      have hv : v ≤ 1023 := Nat.le_of_not_lt h2
      refine .inr (.inr ⟨by omega, hv, _, rfl, ?_⟩)
      rw [BitVec.toNat_ofNat, Nat.mod_eq_of_lt (scanWrite_lt bank id hv), scanWrite_eq]

/-- The slots and the headroom of the bank `setCounter` gives (R163, R177, R178). -/
theorem setCounter_slots {bank b : Bank} {id v : Nat} (h : setCounter bank id v = .ok b) :
    id ≤ 24 ∧ v ≤ 1023 ∧ slot b id = v ∧ headroom b = headroom bank ∧
      (∀ i, i ≤ 24 → i ≠ id → slot b i = slot bank i) ∧
      b.toNat + slot bank id * 2 ^ (10 * id) = bank.toNat + v * 2 ^ (10 * id) := by
  rcases setCounter_spec bank id v with ⟨_, h'⟩ | ⟨_, _, h'⟩ | ⟨hid, hv, b', h', hb⟩
  · rw [h] at h'; cases h'
  · rw [h] at h'; cases h'
  · rw [h] at h'
    cases h'
    have hlt := updated_slot_lt bank id hv
    refine ⟨hid, hv, ?_, headroom_of_packed hlt hb, ?_, ?_⟩
    · rw [slot_of_packed hlt hb hid, if_pos rfl]
    · intro i hi hne
      rw [slot_of_packed hlt hb hi, if_neg (Ne.symm hne)]
    · have := packed_update (slot bank) (by omega : id < 25) v
      have := bank_eq_packed bank
      omega

/-- All that `incrementCounter` can do: it fails on the id, else on a full counter, else it is `setCounter` of the
next value (R164). -/
theorem incrementCounter_spec (bank : Bank) (id : Nat) :
    (24 < id ∧ incrementCounter bank id = .error .counterId) ∨
    (id ≤ 24 ∧ slot bank id = 1023 ∧ incrementCounter bank id = .error .saturated) ∨
    (id ≤ 24 ∧ slot bank id < 1023 ∧ incrementCounter bank id = setCounter bank id (slot bank id + 1)) := by
  unfold incrementCounter
  rw [getCounter_eq]
  by_cases h1 : id > 24
  · exact .inl ⟨h1, by rw [if_pos h1]⟩
  · rw [if_neg h1]
    have hs := slot_lt bank id
    by_cases h2 : slot bank id ≥ Config.counterMax
    · have h3 : slot bank id ≥ 1023 := h2
      exact .inr (.inl ⟨by omega, by omega, if_pos h2⟩)
    · have h3 : ¬ slot bank id ≥ 1023 := h2
      exact .inr (.inr ⟨by omega, by omega, if_neg h2⟩)

end Sys2Proof.Machine
end

