-- ==== Sys2Proof/Laws/Bytes.lean ====
section
/-! SUPPORT. `BE`, `fold` and the fields cut from byte strings: what a serialised value reads back as, and what a
read value serialises to (R14, R15, R63, R64). -/

namespace Sys2Proof.Machine

@[simp] theorem fold_nil : fold [] = 0 := rfl

/-- `fold` takes one byte more by `value*256 + nextByte` (R15). -/
theorem fold_concat (s : Bytes) (b : Byte) : fold (s ++ [b]) = fold s * 256 + b.toNat := by
  simp [fold]

theorem foldl_bytes_start (s : Bytes) (v : Nat) :
    s.foldl (fun value nextByte => value * 256 + nextByte.toNat) v = v * 256 ^ s.length + fold s := by
  induction s generalizing v with
  | nil => simp
  | cons b s ih =>
    simp only [List.foldl_cons, List.length_cons, fold]
    rw [ih, ih (0 * 256 + b.toNat)]
    ring

/-- `fold` of a string in two parts. -/
theorem fold_append (s t : Bytes) : fold (s ++ t) = fold s * 256 ^ t.length + fold t := by
  unfold fold
  rw [List.foldl_append, foldl_bytes_start]
  rfl

/-- `fold` from the most significant byte. -/
theorem fold_cons (b : Byte) (s : Bytes) : fold (b :: s) = b.toNat * 256 ^ s.length + fold s := by
  have := fold_append [b] s
  simpa [fold] using this

/-- `n` bytes hold less than `256^n`. -/
theorem fold_lt (s : Bytes) : fold s < 256 ^ s.length := by
  induction s with
  | nil => simp
  | cons b s ih =>
    rw [fold_cons, List.length_cons, pow_succ]
    have := b.isLt
    nlinarith [Nat.zero_le (256 ^ s.length)]

/-- `BE` looks at the value modulo `256^n` only. -/
theorem be_mod (n v : Nat) : be n (v % 256 ^ n) = be n v := by
  induction n generalizing v with
  | zero => rfl
  | succ n ih =>
    have h1 : v % 256 ^ (n + 1) / 256 ^ n = v / 256 ^ n % 256 := by
      rw [pow_succ, Nat.mod_mul_right_div_self]
    have h2 : be n (v % 256 ^ (n + 1)) = be n v := by
      rw [← ih (v % 256 ^ (n + 1)), Nat.mod_mod_of_dvd _ (pow_dvd_pow 256 (Nat.le_succ n)), ih]
    simp only [be, h1, h2, List.cons.injEq, and_true]
    apply BitVec.eq_of_toNat_eq
    simp

/-- `fold(BE(n, v)) = v mod 256^n`. -/
theorem fold_be_mod (n v : Nat) : fold (be n v) = v % 256 ^ n := by
  induction n with
  | zero => simp [be, Nat.mod_one]
  | succ n ih =>
    have h : (BitVec.ofNat 8 (v / 256 ^ n)).toNat = v / 256 ^ n % 256 := BitVec.toNat_ofNat ..
    rw [be, fold_cons, be_length, ih, h, pow_succ, Nat.mod_mul, Nat.mul_comm, Nat.add_comm]

/-- `fold(BE(n, v)) = v` for a value that fits (R15). -/
theorem fold_be {n v : Nat} (h : v < 256 ^ n) : fold (be n v) = v := by
  rw [fold_be_mod, Nat.mod_eq_of_lt h]

/-- `BE(|s|, fold(s)) = s` (R15). -/
theorem be_fold (s : Bytes) : be s.length (fold s) = s := by
  induction s with
  | nil => rfl
  | cons b s ih =>
    have hlt := fold_lt s
    have h1 : fold (b :: s) / 256 ^ s.length = b.toNat := by
      rw [fold_cons, Nat.mul_comm, Nat.mul_add_div (by positivity), Nat.div_eq_of_lt hlt, Nat.add_zero]
    have h2 : be s.length (fold (b :: s)) = s := by
      rw [← be_mod, fold_cons, Nat.mul_comm, Nat.mul_add_mod, Nat.mod_eq_of_lt hlt, ih]
    simp only [List.length_cons, be, h1, h2, List.cons.injEq, and_true]
    exact BitVec.ofNat_toNat .. |>.trans (BitVec.setWidth_eq b)

theorem pow256 (n : Nat) : (256 : Nat) ^ n = 2 ^ (8 * n) := by rw [pow_mul]; norm_num

/-- An INT256 field reads back as the integer it was written from (R63). -/
@[simp] theorem intOf_intField (v : Int256) : intOf (intField v.toNat) = v := by
  unfold intOf intField
  rw [fold_be (by rw [pow256]; exact v.isLt)]
  exact (BitVec.ofNat_toNat 256 v).trans (BitVec.setWidth_eq v)

/-- An INT256 field is written back as the bytes it was read from (R63). -/
theorem intField_intOf {f : Bytes} (h : f.length = 32) : intField (intOf f).toNat = f := by
  have hlt : fold f < 2 ^ 256 := by
    have := fold_lt f
    rwa [h, pow256] at this
  unfold intField intOf
  rw [BitVec.toNat_ofNat, Nat.mod_eq_of_lt hlt]
  have := be_fold f
  rwa [h] at this

/-- A word reads back from its four bytes (R64). -/
theorem wordOf_be (w : Word) : BitVec.ofNat 32 (fold (be 4 w.toNat)) = w := by
  rw [fold_be (by have := w.isLt; omega)]
  exact (BitVec.ofNat_toNat 32 w).trans (BitVec.setWidth_eq w)

/-- Four bytes are written back from the word they were read as (R64). -/
theorem be_wordOf {f : Bytes} (h : f.length = 4) : be 4 (BitVec.ofNat 32 (fold f)).toNat = f := by
  have hlt : fold f < 2 ^ 32 := by
    have := fold_lt f
    rw [h] at this
    omega
  rw [BitVec.toNat_ofNat, Nat.mod_eq_of_lt hlt]
  have := be_fold f
  rwa [h] at this

/-- A slice of a string in two parts, taken whole from the first. -/
theorem slice_append_left (s t : Bytes) (i j : Nat) (h : j ≤ s.length) :
    slice (s ++ t) i j = slice s i j := by
  simp [slice, List.take_append_of_le_length h]

/-- A slice of a string in two parts, taken whole from the second. -/
theorem slice_append_right (s t : Bytes) (i j : Nat) (h : s.length ≤ i) :
    slice (s ++ t) i j = slice t (i - s.length) (j - s.length) := by
  have h1 : (s.take j).drop i = [] := List.drop_eq_nil_of_le (by simp; omega)
  have h2 : i - min j s.length = i - s.length ∨ (t.take (j - s.length)) = [] := by
    by_cases hj : s.length ≤ j
    · exact .inl (by omega)
    · exact .inr (by rw [Nat.sub_eq_zero_of_le (by omega), List.take_zero])
  rcases h2 with h2 | h2
  · simp [slice, List.take_append, List.drop_append, h1, h2]
  · simp [slice, List.take_append, h1, h2]

/-- The slice that is all of the string. -/
theorem slice_all (s : Bytes) (j : Nat) (h : s.length ≤ j) : slice s 0 j = s := by
  simp [slice, List.take_of_length_le h]

/-- Two slices that meet are one. -/
theorem slice_slice_append (s : Bytes) {i j k : Nat} (hij : i ≤ j) (hjk : j ≤ k) :
    slice s i j ++ slice s j k = slice s i k := by
  apply List.ext_getElem?
  intro n
  simp only [slice, List.getElem?_append, List.getElem?_drop, List.getElem?_take, List.length_drop,
    List.length_take]
  by_cases hk : n < min j s.length - i
  · rw [if_pos hk, if_pos (by omega), if_pos (by omega)]
  · rw [if_neg hk]
    by_cases hs : s.length ≤ i + n
    · have h1 : s[i + n]? = none := List.getElem?_eq_none hs
      by_cases hl : j + (n - (min j s.length - i)) < k
      · have h2 : s[j + (n - (min j s.length - i))]? = none := List.getElem?_eq_none (by omega)
        simp [h1, h2]
      · simp [h1, hl]
    · have h3 : j + (n - (min j s.length - i)) = i + n := by omega
      rw [h3]

end Sys2Proof.Machine
end

