-- ==== Sys2Proof/Laws/Codec.lean ====
section
/-! SUPPORT. The commitment codec: what `fromLimbs` can answer and what the halves of an instance fold to
(R136, R137). -/

namespace Sys2Proof.Machine

/-- Two instances with the same bytes are the same. -/
theorem Bytes32.eq_of_bytes {x y : Bytes32} (h : x.bytes = y.bytes) : x = y := by
  cases x
  cases y
  simp_all

/-- The limbs of the instance of two limbs are the limbs (R136, R137). -/
theorem toLimbs_limbsInstance {high low : Nat} (hh : high < 2 ^ 128) (hl : low < 2 ^ 128) :
    toLimbs (limbsInstance high low) = (high, low) := by
  have h16 : (256 : Nat) ^ 16 = 2 ^ 128 := by norm_num
  have h1 : slice (be 16 high ++ be 16 low) 0 16 = be 16 high := by
    rw [slice_append_left _ _ _ _ (by simp), slice_all _ _ (by simp)]
  have h2 : slice (be 16 high ++ be 16 low) 16 32 = be 16 low := by
    rw [slice_append_right _ _ _ _ (by simp), be_length, slice_all _ _ (by simp)]
  simp only [toLimbs, limbsInstance, h1, h2]
  rw [fold_be (by omega), fold_be (by omega)]

/-- All that `fromLimbs` can do: it fails on the high limb, else on the low limb, else it gives the instance; its
self-check never fails (R136). -/
theorem fromLimbs_spec (high low : Nat) :
    (2 ^ 128 ≤ high ∧ fromLimbs high low = .error .limbHigh) ∨
    (high < 2 ^ 128 ∧ 2 ^ 128 ≤ low ∧ fromLimbs high low = .error .limbLow) ∨
    (high < 2 ^ 128 ∧ low < 2 ^ 128 ∧ fromLimbs high low = .ok (limbsInstance high low)) := by
  unfold fromLimbs
  by_cases h1 : high ≥ 2 ^ Config.limbBits
  · exact .inl ⟨h1, if_pos h1⟩
  · have h1' : high < 2 ^ 128 := Nat.lt_of_not_le h1
    rw [if_neg h1]
    by_cases h2 : low ≥ 2 ^ Config.limbBits
    · exact .inr (.inl ⟨h1', h2, if_pos h2⟩)
    · have h2' : low < 2 ^ 128 := Nat.lt_of_not_le h2
      rw [if_neg h2]
      exact .inr (.inr ⟨h1', h2', by simp [toLimbs_limbsInstance h1' h2']⟩)

/-- A limb read from an instance is below `2^128` (R137). -/
theorem toLimbs_lt (inst : Bytes32) : (toLimbs inst).1 < 2 ^ 128 ∧ (toLimbs inst).2 < 2 ^ 128 := by
  have h16 : (256 : Nat) ^ 16 = 2 ^ 128 := by norm_num
  have h1 := fold_lt (slice inst.bytes 0 16)
  have h2 := fold_lt (slice inst.bytes 16 32)
  rw [slice_length _ _ _ (by have := inst.size; omega)] at h1 h2
  exact ⟨by simpa [toLimbs, h16] using h1, by simpa [toLimbs, h16] using h2⟩

/-- The instance of the limbs of an instance is that instance (R144). -/
theorem limbsInstance_toLimbs (inst : Bytes32) : limbsInstance (toLimbs inst).1 (toLimbs inst).2 = inst := by
  apply Bytes32.eq_of_bytes
  have h1 := be_fold (slice inst.bytes 0 16)
  have h2 := be_fold (slice inst.bytes 16 32)
  rw [slice_length _ _ _ (by have := inst.size; omega)] at h1 h2
  simp only [limbsInstance, toLimbs]
  rw [h1, h2, slice_slice_append _ (by omega) (by omega), slice_all _ _ (by rw [inst.size])]

/-- A coordinate below `2^256` is the fold of its 32 bytes (R138, R139). -/
theorem fold_be32 {v : Nat} (h : v < 2 ^ 256) : fold (be32 v).bytes = v := by
  have h32 : (256 : Nat) ^ 32 = 2 ^ 256 := by norm_num
  exact fold_be (by rw [h32]; exact h)

/-- An instance is the 32 bytes of what it folds to (R138, R139). -/
theorem be32_fold (x : Bytes32) : be32 (fold x.bytes) = x := by
  apply Bytes32.eq_of_bytes
  have := be_fold x.bytes
  rwa [x.size] at this

end Sys2Proof.Machine
end

