-- ==== Sys2Proof/Laws/Fields.lean ====
section
/-! SUPPORT. The witness field of a packet reads back as it was written and is written back as it was read (R64). -/

namespace Sys2Proof.Machine

/-- The first word of a string that begins with a serialised word (R64). -/
theorem wordAt_zero (w : Word) (rest : Bytes) : wordAt (be 4 w.toNat ++ rest) 0 = w := by
  unfold wordAt
  rw [slice_append_left _ _ _ _ (by simp), slice_all _ _ (by simp), wordOf_be]

/-- The later words of a string are the words of what follows its first four bytes (R64). -/
theorem wordAt_succ {x : Bytes} (h : x.length = 4) (rest : Bytes) (i : Nat) :
    wordAt (x ++ rest) (i + 1) = wordAt rest i := by
  unfold wordAt
  rw [slice_append_right _ _ _ _ (by omega), h,
    show 4 * (i + 1) - 4 = 4 * i by omega, show 4 * (i + 1) + 4 - 4 = 4 * i + 4 by omega]

/-- A word is written back as the four bytes it was read from (R64). -/
theorem be_wordAt (s : Bytes) (i : Nat) (h : 4 * i + 4 ≤ s.length) :
    be 4 (wordAt s i).toNat = slice s (4 * i) (4 * i + 4) := by
  unfold wordAt
  exact be_wordOf (by rw [slice_length _ _ _ h]; omega)

/-- A CompressionState is its eight words, serialised one after another (R44). -/
theorem stateBytes_eq (st : CompressionState) :
    stateBytes st = be 4 st.a.toNat ++ (be 4 st.b.toNat ++ (be 4 st.c.toNat ++ (be 4 st.d.toNat ++
      (be 4 st.e.toNat ++ (be 4 st.f.toNat ++ (be 4 st.g.toNat ++ be 4 st.h.toNat)))))) := by
  simp [stateBytes, lanes]

/-- A witness is its 18 words in the order of R64, serialised one after another. -/
theorem witnessBytes_eq (w : RoundWitness) :
    witnessBytes w = (lanes w.pen ++ lanes w.init ++ [w.mw, w.rc]).flatMap fun x => be 4 x.toNat := by
  simp [witnessBytes, stateBytes]

/-- The eight words of a serialised CompressionState are its lanes (R44). -/
theorem stateAt_stateBytes (st : CompressionState) : stateAt (stateBytes st) 0 = st := by
  have h := wordAt_zero st.h []
  rw [List.append_nil] at h
  simp [stateAt, stateBytes_eq, wordAt_zero, wordAt_succ, h]

/-- A witness reads back from its 72 bytes (R64). -/
theorem witnessOf_witnessBytes (w : RoundWitness) : witnessOf (witnessBytes w) = w := by
  have h := wordAt_zero w.rc []
  rw [List.append_nil] at h
  simp [witnessOf, witnessBytes, stateAt, stateBytes_eq, wordAt_zero, wordAt_succ, h]

/-- Eight lanes are written back as the 32 bytes they were read from (R64). -/
theorem stateBytes_stateAt (s : Bytes) (k : Nat) (h : 4 * k + 32 ≤ s.length) :
    stateBytes (stateAt s k) = slice s (4 * k) (4 * k + 32) := by
  simp only [stateBytes_eq, stateAt]
  rw [be_wordAt s k (by omega), be_wordAt s (k + 1) (by omega), be_wordAt s (k + 2) (by omega),
    be_wordAt s (k + 3) (by omega), be_wordAt s (k + 4) (by omega), be_wordAt s (k + 5) (by omega),
    be_wordAt s (k + 6) (by omega), be_wordAt s (k + 7) (by omega)]
  simp only [Nat.mul_add, Nat.reduceMul, Nat.add_assoc, Nat.reduceAdd]
  repeat rw [slice_slice_append s (by omega) (by omega)]

/-- A witness is written back as the 72 bytes it was read from (R64). -/
theorem witnessBytes_witnessOf (s : Bytes) (h : s.length = 72) : witnessBytes (witnessOf s) = s := by
  unfold witnessBytes witnessOf
  simp only
  rw [stateBytes_stateAt s 0 (by omega), stateBytes_stateAt s 8 (by omega), be_wordAt s 16 (by omega),
    be_wordAt s 17 (by omega)]
  simp only [Nat.reduceMul, Nat.reduceAdd]
  repeat rw [slice_slice_append s (by omega) (by omega)]
  exact slice_all s 72 (by omega)

/-- The digest of a CompressionState names it: equal digests are equal states (R44). -/
theorem stateBytes_injective {st st' : CompressionState} (h : stateBytes st = stateBytes st') : st = st' := by
  rw [← stateAt_stateBytes st, h, stateAt_stateBytes]

/-- Every 32 bytes are the digest of some CompressionState (R44). -/
theorem stateBytes_surjective (d : Bytes32) : stateBytes (stateAt d.bytes 0) = d.bytes := by
  rw [stateBytes_stateAt d.bytes 0 (by rw [d.size])]
  exact slice_all _ _ (by rw [d.size])

end Sys2Proof.Machine
end

