-- ==== Sys2Proof/Laws/Hash.lean ====
section
/-! SUPPORT. The hash: the message schedule is what R98 says of every later word, a message pads to whole blocks, and
one round changes what R129 says it changes. -/

namespace Sys2Proof.Machine

/-! ### The message schedule (R98) -/

@[simp] theorem extendSchedule_length (n : Nat) (W : List Word) : (extendSchedule n W).length = W.length + n := by
  induction n generalizing W with
  | zero => rfl
  | succ n ih => simp [extendSchedule, ih]; omega

/-- Extending a schedule keeps the words it has. -/
theorem extendSchedule_getD_lt (n : Nat) (W : List Word) {t : Nat} (h : t < W.length) :
    (extendSchedule n W).getD t 0 = W.getD t 0 := by
  induction n generalizing W with
  | zero => rfl
  | succ n ih =>
    rw [extendSchedule, ih _ (by simp; omega), List.getD_append _ _ _ _ h]

/-- Every word an extension adds is the one R98 gives it. -/
theorem extendSchedule_getD (n : Nat) (W : List Word) {t : Nat} (h16 : 16 ≤ W.length) (h : W.length ≤ t)
    (hn : t < W.length + n) : (extendSchedule n W).getD t 0 =
      ssig1 ((extendSchedule n W).getD (t - 2) 0) + (extendSchedule n W).getD (t - 7) 0 +
        ssig0 ((extendSchedule n W).getD (t - 15) 0) + (extendSchedule n W).getD (t - 16) 0 := by
  induction n generalizing W with
  | zero => omega
  | succ n ih =>
    rw [extendSchedule]
    rcases Nat.lt_or_eq_of_le h with hlt | rfl
    · exact ih _ (by simp; omega) (by simp; omega) (by simp; omega)
    · have hw : ∀ j, j < W.length → (extendSchedule n (W ++ [nextScheduleWord W])).getD j 0 = W.getD j 0 := by
        intro j hj
        rw [extendSchedule_getD_lt _ _ (by simp; omega), List.getD_append _ _ _ _ hj]
      rw [hw (W.length - 2) (by omega), hw (W.length - 7) (by omega), hw (W.length - 15) (by omega),
        hw (W.length - 16) (by omega), extendSchedule_getD_lt _ _ (by simp), List.getD_append_right _ _ _ _ (le_refl _)]
      simp [nextScheduleWord]

@[simp] theorem blockWords_length (block : Bytes) : (blockWords block).length = 16 := by
  simp [blockWords]

/-! ### The rotations and shifts, bit by bit (R16) -/

/-- A rotation brings bit `(i + n) mod 32` to bit `i`. -/
theorem rotr_getLsbD (x : Word) {n i : Nat} (h0 : 0 < n) (hn : n < 32) (hi : i < 32) :
    (rotr x n).getLsbD i = x.getLsbD ((i + n) % 32) := by
  rw [rotr, BitVec.getLsbD_or, BitVec.getLsbD_ushiftRight, BitVec.getLsbD_shiftLeft]
  by_cases h : i + n < 32
  · have h' : i < 32 - n := by omega
    rw [Nat.mod_eq_of_lt h]
    simp [h', Nat.add_comm]
  · have h' : ¬ i < 32 - n := by omega
    rw [BitVec.getLsbD_of_ge x (n + i) (by omega), show (i + n) % 32 = i - (32 - n) by omega]
    simp [hi, h']

/-- A shift brings bit `i + n` to bit `i`, and zeros where there is none. -/
theorem shr_getLsbD (x : Word) (n i : Nat) :
    (shr x n).getLsbD i = (decide (i + n < 32) && x.getLsbD (i + n)) := by
  rw [shr, BitVec.getLsbD_ushiftRight, Nat.add_comm]
  by_cases h : i + n < 32
  · simp [h]
  · simp [h, BitVec.getLsbD_of_ge x (i + n) (by omega)]

/-! ### Rounds -/

/-- A round, lane by lane (R99). -/
theorem hashRound_eq (x : CompressionState) (k w : Word) :
    hashRound x k w =
      ⟨x.h + bsig1 x.e + ch x.e x.f x.g + k + w + (bsig0 x.a + maj x.a x.b x.c), x.a, x.b, x.c,
        x.d + (x.h + bsig1 x.e + ch x.e x.f x.g + k + w), x.e, x.f, x.g⟩ := rfl

/-- A compression is the chaining step on the state after all 64 rounds (R100). -/
theorem compress_eq (H : CompressionState) (block : Bytes) :
    compress H block = chain H (hashRounds H (schedule block) 64) := rfl

@[simp] theorem chaining_zero (P : Bytes) : chaining P 0 = iv := rfl

/-- The chaining state after one more block is that block's compression (R101). -/
theorem chaining_compress (P : Bytes) (j : Nat) : chaining P (j + 1) = compress (chaining P j) (blockAt P j) := rfl

/-- The round constant of the omitted round (R95, R108). -/
theorem roundConstant_last : roundConstant 63 = 0xc67178f2#32 := by decide

/-- The full 64 rounds are the 63 of the witness and the omitted one (R100, R107). -/
theorem hashRounds_succ (H : CompressionState) (W : List Word) (t : Nat) :
    hashRounds H W (t + 1) = hashRound (hashRounds H W t) (roundConstant t) (W.getD t 0) := rfl

/-- All 64 rounds are the 63 of the witness and the omitted one, the numeral 64 as the meanings write it. -/
theorem hashRounds_full (H : CompressionState) (W : List Word) :
    hashRounds H W 64 = hashRound (hashRounds H W 63) (roundConstant 63) (W.getD 63 0) :=
  hashRounds_succ H W 63

/-- The chaining value after one more block: the 63 rounds of a witness, the omitted round and the chaining step
(R100, R101, R102). -/
theorem chaining_succ (P : Bytes) (j : Nat) :
    chaining P (j + 1) = chain (chaining P j)
      (hashRound (hashRounds (chaining P j) (schedule (blockAt P j)) 63) (roundConstant 63)
        ((schedule (blockAt P j)).getD 63 0)) := by
  rw [← hashRounds_succ]
  rfl

/-- The four fields of the witness of a message (R102). -/
theorem splitWitness_fields (S : Bytes) :
    splitWitness S =
      { pen := hashRounds (chaining (pad S) (blockCount S.length - 1))
          (schedule (blockAt (pad S) (blockCount S.length - 1))) 63
        init := chaining (pad S) (blockCount S.length - 1)
        mw := (schedule (blockAt (pad S) (blockCount S.length - 1))).getD 63 0
        rc := roundConstant 63 } := rfl

/-- The witness of a message, field by field (R102): `j` is the number of its last block. -/
theorem splitWitness_eq (S : Bytes) {j : Nat} (h : blockCount S.length = j + 1) :
    splitWitness S =
      { pen := hashRounds (chaining (pad S) j) (schedule (blockAt (pad S) j)) 63
        init := chaining (pad S) j
        mw := (schedule (blockAt (pad S) j)).getD 63 0
        rc := roundConstant 63 } := by
  unfold splitWitness
  rw [h, Nat.add_sub_cancel]

/-- A padded message has a last block (R92). -/
theorem exists_last_block (L : Nat) : ∃ j, blockCount L = j + 1 :=
  ⟨(L + 8) / 64, by unfold blockCount; omega⟩

/-- `mw` and `rc` enter a round only through their sum (R128). -/
theorem hashRound_sum (st : CompressionState) {k w k' w' : Word} (h : k + w = k' + w') :
    hashRound st k w = hashRound st k' w' := by
  have : roundT1 st k w = roundT1 st k' w' := by
    unfold roundT1
    rw [BitVec.add_assoc _ k w, BitVec.add_assoc _ k' w', h]
  unfold hashRound
  rw [this]

/-- The chaining step can be undone in its first operand (R128, R129). -/
theorem chain_left_cancel {H H' st : CompressionState} (h : chain H st = chain H' st) : H = H' := by
  simp only [chain, CompressionState.mk.injEq, BitVec.add_left_inj] at h
  cases H
  cases H'
  simp_all

/-- The chaining step can be undone in its second operand (R129). -/
theorem chain_right_cancel {H st st' : CompressionState} (h : chain H st = chain H st') : st = st' := by
  simp only [chain, CompressionState.mk.injEq, BitVec.add_right_inj] at h
  cases st
  cases st'
  simp_all

/-! ### Padding (R91) -/

/-- The padding's zero bytes reach the next block boundary (R91). -/
theorem padZeros_spec (L : Nat) :
    ((padZeros L : Nat) : Int) = (55 - (L : Int)) % 64 ∧ padZeros L ≤ 63 ∧
      L + 1 + padZeros L + 8 = 64 * blockCount L := by
  unfold padZeros blockCount
  omega

/-- A padded message is whole blocks, `N` of them (R91). -/
theorem pad_length (S : Bytes) : (pad S).length = 64 * blockCount S.length := by
  have := (padZeros_spec S.length).2.2
  simp only [pad, List.length_append, List.length_replicate, be_length, List.length_cons, List.length_nil]
  omega

end Sys2Proof.Machine
end

