-- ==== Sys2Proof/Laws/PerInstr.lean ====
section
/-! SUPPORT. The statements made per command, one lemma for each constructor of `Instr`. -/

namespace Sys2Proof.Laws.EncodedLength

open Sys2Proof.Machine

/-- The packet of a command has the length the opcode map gives the command, and its first byte is the command's
opcode (R61, R66). -/
def Statement (i : Instr) : Prop := (encode i).length = i.packetLength ∧ (encode i).head? = some i.opcode

theorem hsSplit (msg : Bytes) : Statement (.hsSplit msg) :=
  ⟨Nat.add_comm _ _, rfl⟩

theorem frvVerify (witness : RoundWitness) (claimed : Bytes32) : Statement (.frvVerify witness claimed) :=
  ⟨by simp [encode, Instr.operands, Instr.packetLength, claimed.size], rfl⟩

theorem ccFromLimbs (high low : Int256) : Statement (.ccFromLimbs high low) :=
  ⟨by simp [encode, Instr.operands, Instr.packetLength], rfl⟩

theorem ccToLimbs (inst : Bytes32) : Statement (.ccToLimbs inst) :=
  ⟨by simp [encode, Instr.operands, Instr.packetLength, inst.size], rfl⟩

theorem ccFromPoint (x y : Int256) : Statement (.ccFromPoint x y) :=
  ⟨by simp [encode, Instr.operands, Instr.packetLength], rfl⟩

theorem ccToPoint (bx byy : Bytes32) : Statement (.ccToPoint bx byy) :=
  ⟨by simp [encode, Instr.operands, Instr.packetLength, bx.size, byy.size], rfl⟩

theorem scbLoad (v : Int256) : Statement (.scbLoad v) :=
  ⟨by simp [encode, Instr.operands, Instr.packetLength], rfl⟩

theorem scbStore : Statement (.scbStore) :=
  ⟨rfl, rfl⟩

theorem scbGet (id : Int256) : Statement (.scbGet id) :=
  ⟨by simp [encode, Instr.operands, Instr.packetLength], rfl⟩

theorem scbSet (id newValue : Int256) : Statement (.scbSet id newValue) :=
  ⟨by simp [encode, Instr.operands, Instr.packetLength], rfl⟩

theorem scbInc (id : Int256) : Statement (.scbInc id) :=
  ⟨by simp [encode, Instr.operands, Instr.packetLength], rfl⟩

theorem scbIsFull (id : Int256) : Statement (.scbIsFull id) :=
  ⟨by simp [encode, Instr.operands, Instr.packetLength], rfl⟩

theorem scbTotal : Statement (.scbTotal) :=
  ⟨rfl, rfl⟩

theorem scbFindMax : Statement (.scbFindMax) :=
  ⟨rfl, rfl⟩

end Sys2Proof.Laws.EncodedLength
end

