-- ==== Sys2Proof/Laws/Scans.lean ====
section
/-! SUPPORT. The scans of SCB.TOTAL and SCB.FINDMAX: how large the sum can be, and which slot the maximum scan
ends on (R166, R167). -/

namespace Sys2Proof.Machine

/-- The sum of 25 counters of at most 1023 (R166). -/
theorem totalCount_le (bank : Bank) : totalCount bank ≤ 25575 := by
  have key : ∀ k, ((List.range k).map (slot bank)).sum ≤ k * 1023 := by
    intro k
    induction k with
    | zero => simp
    | succ k ih =>
      have := slot_lt bank k
      simp only [List.range_succ, List.map_append, List.map_cons, List.map_nil, List.sum_append, List.sum_cons,
        List.sum_nil]
      omega
  exact key 25

/-- Where the maximum scan stands after the slots 1 to `k`: on the lowest index of the largest slot so far
(R167). -/
theorem findMax_scan (f : Nat → Nat) (k : Nat) :
    let best := (List.range' 1 k).foldl (fun best i => if f i > best.2 then (i, f i) else best) (0, f 0)
    best.1 ≤ k ∧ best.2 = f best.1 ∧ (∀ i, i ≤ k → f i ≤ best.2) ∧ ∀ i, i < best.1 → f i < best.2 := by
  induction k with
  | zero =>
    refine ⟨le_refl _, rfl, ?_, ?_⟩
    · intro i hi
      rw [Nat.le_zero.mp hi]
      rfl
    · intro i hi
      exact absurd hi (Nat.not_lt_zero i)
  | succ k ih =>
    obtain ⟨h1, h2, h3, h4⟩ := ih
    rw [List.range'_1_concat, List.foldl_append]
    simp only [List.foldl_cons, List.foldl_nil]
    generalize (List.range' 1 k).foldl (fun best i => if f i > best.2 then (i, f i) else best) (0, f 0) = best at *
    by_cases hgt : f (1 + k) > best.2
    · rw [if_pos hgt]
      refine ⟨by show 1 + k ≤ k + 1; omega, rfl, ?_, ?_⟩
      · intro i hi
        show f i ≤ f (1 + k)
        rcases Nat.lt_or_ge i (k + 1) with hlt | hge
        · exact le_of_lt (lt_of_le_of_lt (h3 i (by omega)) hgt)
        · rw [show i = 1 + k by omega]
      · intro i hi
        show f i < f (1 + k)
        have hi' : i < 1 + k := hi
        exact lt_of_le_of_lt (h3 i (by omega)) hgt
    · rw [if_neg hgt]
      refine ⟨by omega, h2, ?_, h4⟩
      intro i hi
      rcases Nat.lt_or_ge i (k + 1) with hlt | hge
      · exact h3 i (by omega)
      · rw [show i = 1 + k by omega]
        omega

/-- All that `findMax` can answer: the lowest index of the largest counter, and that counter (R167). -/
theorem findMax_spec (bank : Bank) :
    (findMax bank).1 ≤ 24 ∧ (findMax bank).2 = slot bank (findMax bank).1 ∧
      (∀ i, i ≤ 24 → slot bank i ≤ (findMax bank).2) ∧ ∀ i, i < (findMax bank).1 → slot bank i < (findMax bank).2 :=
  findMax_scan (slot bank) 24

/-- Two banks with the same 250 low bits have the same counters (R178). -/
theorem slot_congr {b b' : Bank} (h : b.toNat % 2 ^ 250 = b'.toNat % 2 ^ 250) {i : Nat} (hi : i ≤ 24) :
    slot b i = slot b' i := by
  have key : ∀ n : Nat, n / 2 ^ (10 * i) % 1024 = n % 2 ^ 250 / 2 ^ (10 * i) % 1024 := by
    intro n
    have h1 : (2 : Nat) ^ 250 = 2 ^ (10 * i) * 1024 * 2 ^ (240 - 10 * i) := by
      rw [show (1024 : Nat) = 2 ^ 10 by norm_num, ← pow_add, ← pow_add]
      congr 1
      omega
    rw [h1, Nat.mul_assoc, Nat.mod_mul_right_div_self, Nat.mod_mul_right_mod]
  unfold slot
  rw [key, h, ← key]

end Sys2Proof.Machine
end

