-- ==== Sys2Proof/Machine/AsmText.lean ====
section
/-! DEFINITION. The text of the assembler syntax: a line of R77 read into the command it writes, with the literals of
R78, and a program of such lines run by the host (assumption log entry 9). -/

namespace Sys2Proof.Machine

/-! ### Tokens -/

/-- A piece of a line (R77, R78). -/
inductive Token where
  /-- `%name` -/
  | var (name : String)
  /-- a mnemonic, an integer or a power expression -/
  | word (chars : String)
  /-- `h"..."` -/
  | hex (digits : String)
  /-- `"text"` -/
  | text (chars : String)
  /-- what stands between the braces of a witness literal -/
  | witness (body : String)
  /-- the arrow between the variables and the command -/
  | arrow
  | comma
  /-- `!STATUS.DETAIL` -/
  | expected (name : String)
  deriving DecidableEq, Repr

/-- Where the reading of a line stands; the characters of a piece are kept last first. -/
inductive Reading where
  | between
  | inVar (chars : List Char)
  | inWord (chars : List Char)
  | inHex (chars : List Char)
  | inText (chars : List Char)
  | inWitness (chars : List Char)
  | inExpected (chars : List Char)
  /-- after the first character of an arrow -/
  | inArrow
  | inComment
  /-- the line is not one of R77 -/
  | wrong
  deriving DecidableEq, Repr

/-- The tokens read so far, last first, and where the reading stands. -/
structure Reader where
  tokens : List Token
  now    : Reading
  deriving DecidableEq, Repr

/-- A letter, a digit or an underscore. -/
def isNameChar (c : Char) : Bool := c.isAlpha || c.isDigit || c == '_'

/-- A character of a mnemonic, an integer or a power expression. -/
def isWordChar (c : Char) : Bool := isNameChar c || c == '.' || c == '^' || c == '-'

/-- The double quote, which opens and closes a byte string or a text. -/
def isQuote (c : Char) : Bool := c.toNat == 34

/-- The brace that opens a witness literal. -/
def isOpenBrace (c : Char) : Bool := c.toNat == 123

/-- The brace that closes a witness literal. -/
def isCloseBrace (c : Char) : Bool := c.toNat == 125

/-- One character between two pieces. -/
def readBetween (tokens : List Token) (c : Char) : Reader :=
  if c == ' ' then ⟨tokens, .between⟩
  else if c == ';' then ⟨tokens, .inComment⟩
  else if c == ',' then ⟨.comma :: tokens, .between⟩
  else if c == '%' then ⟨tokens, .inVar []⟩
  else if c == '!' then ⟨tokens, .inExpected []⟩
  else if c == '<' then ⟨tokens, .inArrow⟩
  else if isQuote c then ⟨tokens, .inText []⟩
  else if isOpenBrace c then ⟨tokens, .inWitness []⟩
  else if isWordChar c then ⟨tokens, .inWord [c]⟩
  else ⟨tokens, .wrong⟩

/-- One character of a line. -/
def readChar (r : Reader) (c : Char) : Reader :=
  match r.now with
  | .between => readBetween r.tokens c
  | .inVar cs =>
    if isNameChar c then ⟨r.tokens, .inVar (c :: cs)⟩
    else if cs = [] then ⟨r.tokens, .wrong⟩
    else readBetween (.var (String.ofList cs.reverse) :: r.tokens) c
  | .inWord cs =>
    if isWordChar c then ⟨r.tokens, .inWord (c :: cs)⟩
    else if cs = ['h'] ∧ isQuote c then ⟨r.tokens, .inHex []⟩
    else readBetween (.word (String.ofList cs.reverse) :: r.tokens) c
  | .inHex cs =>
    if isQuote c then ⟨.hex (String.ofList cs.reverse) :: r.tokens, .between⟩ else ⟨r.tokens, .inHex (c :: cs)⟩
  | .inText cs =>
    if isQuote c then ⟨.text (String.ofList cs.reverse) :: r.tokens, .between⟩ else ⟨r.tokens, .inText (c :: cs)⟩
  | .inWitness cs =>
    if isCloseBrace c then ⟨.witness (String.ofList cs.reverse) :: r.tokens, .between⟩
    else ⟨r.tokens, .inWitness (c :: cs)⟩
  | .inExpected cs =>
    if isWordChar c then ⟨r.tokens, .inExpected (c :: cs)⟩
    else readBetween (.expected (String.ofList cs.reverse) :: r.tokens) c
  | .inArrow => if c == '-' then ⟨.arrow :: r.tokens, .between⟩ else ⟨r.tokens, .wrong⟩
  | .inComment => r
  | .wrong => r

/-- The tokens of a line; `none` where the line ends inside a piece or is not one of R77. A space is put behind the line,
so that its last piece is closed. -/
def tokensOf (line : String) : Option (List Token) :=
  let r := (line.toList ++ [' ']).foldl readChar ⟨[], .between⟩
  match r.now with
  | .between => some r.tokens.reverse
  | .inComment => some r.tokens.reverse
  | _ => none

/-! ### Literals (R78) -/

/-- The integer of decimal digits. -/
def decimalNat (cs : List Char) : Option Nat :=
  if cs ≠ [] ∧ cs.all Char.isDigit then some (cs.foldl (fun n c => n * 10 + (c.toNat - 48)) 0) else none

/-- The integer of lowercase hexadecimal digits. -/
def hexNat (cs : List Char) : Option Nat :=
  if cs = [] then none
  else cs.foldl (fun n c => n.bind fun v => (hexDigit c).map fun d => v * 16 + d) (some 0)

/-- An integer literal: decimal, hexadecimal, or a power expression (R78). -/
def numberLiteral (cs : List Char) : Option Literal :=
  if cs.take 2 = ['0', 'x'] then (hexNat (cs.drop 2)).map .number
  else
    let base := cs.takeWhile (· != '^')
    match cs.drop base.length with
    | [] => (decimalNat cs).map .number
    | _ :: rest =>
      let exponent := rest.takeWhile (· != '-')
      match decimalNat base, decimalNat exponent, rest.drop exponent.length with
      | some b, some e, [] => some (.power b e)
      | some b, some e, _ :: less => (decimalNat less).map (.powerLess b e)
      | _, _, _ => none

/-- The pieces between the separators, the empty ones among them. -/
def splitAtChar (sep : Char) (cs : List Char) : List (List Char) :=
  cs.foldr (fun c pieces => if c == sep then [] :: pieces else
    match pieces with
    | [] => [[c]]
    | p :: rest => (c :: p) :: rest) [[]]

/-- A lane or a word as 8 hexadecimal characters (R19). -/
def wordLiteral (cs : List Char) : Option Word :=
  if cs.length = 8 then (hexNat cs).map (BitVec.ofNat 32) else none

/-- The words of a part of a witness literal: after its name and the equals sign, words separated by spaces. -/
def partWords (name : String) (part : List Char) : Option (List Word) :=
  let body := part.dropWhile (· == ' ')
  let opening := name.toList ++ ['=']
  if body.take opening.length = opening then
    ((splitAtChar ' ' (body.drop opening.length)).filter (· ≠ [])).mapM wordLiteral
  else none

/-- Eight lanes. -/
def lanesState : List Word → Option CompressionState
  | [a, b, c, d, e, f, g, h] => some ⟨a, b, c, d, e, f, g, h⟩
  | _ => none

/-- One word. -/
def oneWord : List Word → Option Word
  | [w] => some w
  | _ => none

/-- A witness literal from its four parts `pen`, `init`, `mw`, `rc` (R78). -/
def witnessLiteral (body : String) : Option RoundWitness :=
  match splitAtChar ',' body.toList with
  | [pen, init, mw, rc] =>
    match (partWords "pen" pen).bind lanesState, (partWords "init" init).bind lanesState,
      (partWords "mw" mw).bind oneWord, (partWords "rc" rc).bind oneWord with
    | some pen, some init, some mw, some rc => some ⟨pen, init, mw, rc⟩
    | _, _, _, _ => none
  | _ => none

/-- The operand of a token (R77, R78). -/
def operandOf : Token → Option Operand
  | .var name => some (.var name)
  | .word chars => (numberLiteral chars.toList).map .lit
  | .hex digits => some (.lit (.hex digits))
  | .text chars => some (.lit (.text chars))
  | .witness body => (witnessLiteral body).map fun w => .lit (.witness w)
  | .arrow => none
  | .comma => none
  | .expected _ => none

/-! ### Lines (R77) -/

/-- A mnemonic of R66 or a pseudo-command of R79. -/
inductive Command where
  | core (m : Mnemonic)
  | pseudo (p : Pseudo)
  deriving DecidableEq, Repr

/-- The names of the commands (R66, R79). -/
def commandNames : List (String × Command) :=
  [("HS.SPLIT", .core .hsSplit), ("FRV.VERIFY", .core .frvVerify),
   ("CC.FROMLIMBS", .core .ccFromLimbs), ("CC.TOLIMBS", .core .ccToLimbs),
   ("CC.FROMPOINT", .core .ccFromPoint), ("CC.TOPOINT", .core .ccToPoint),
   ("SCB.LOAD", .core .scbLoad), ("SCB.STORE", .core .scbStore), ("SCB.GET", .core .scbGet),
   ("SCB.SET", .core .scbSet), ("SCB.INC", .core .scbInc), ("SCB.ISFULL", .core .scbIsFull),
   ("SCB.TOTAL", .core .scbTotal), ("SCB.FINDMAX", .core .scbFindMax)] ++
  [("SCB.CLEAR", .pseudo .scbClear), ("CC.PACKDIGEST", .pseudo .ccPackDigest),
   ("CC.UNPACKDIGEST", .pseudo .ccUnpackDigest), ("CC.PACKPT", .pseudo .ccPackPt),
   ("CC.UNPACKPT", .pseudo .ccUnpackPt), ("HS.CHECK", .pseudo .hsCheck)]

/-- The names of the errors, `STATUS.DETAIL` (R190, R191). -/
def errorNames : List (String × Error) :=
  [("VALIDATION.LIMB_HIGH", .limbHigh), ("VALIDATION.LIMB_LOW", .limbLow),
   ("VALIDATION.COUNTER_VALUE", .counterValue), ("VALIDATION.SATURATED", .saturated),
   ("VALIDATION.BANK_WIDTH", .bankWidth), ("MISMATCH.DIGEST", .digest), ("MISMATCH.SELFCHECK", .selfCheck),
   ("RANGE.COUNTER_ID", .counterId), ("ILLEGAL.OPCODE", .illegal .opcode), ("ILLEGAL.LENGTH", .illegal .length)]

/-- A line as it is written: the command, and the error its response is stated to be (R77). -/
structure SourceLine where
  dests    : List String
  command  : Command
  operands : List Operand
  expected : Option Error
  deriving DecidableEq, Repr

/-- The variables on the left of the arrow, one or more, separated by commas (R77). -/
def destsOf : List Token → Option (List String)
  | [.var name] => some [name]
  | .var name :: .comma :: rest => (destsOf rest).map (name :: ·)
  | _ => none

/-- What follows the mnemonic: operands separated by commas, and the stated error if there is one (R77). -/
def operandsOf : List Token → Option (List Operand × Option Error)
  | [] => some ([], none)
  | [.expected name] => (errorNames.lookup name).map fun e => ([], some e)
  | [t] => (operandOf t).map fun o => ([o], none)
  | [t, .expected name] =>
    match operandOf t, errorNames.lookup name with
    | some o, some e => some ([o], some e)
    | _, _ => none
  | t :: .comma :: next :: rest =>
    match operandOf t, operandsOf (next :: rest) with
    | some o, some (os@(_ :: _), e) => some (o :: os, e)
    | _, _ => none
  | _ => none

/-- A line with its variables already read: the mnemonic, then the operands (R77). -/
def commandLine (dests : List String) : List Token → Option SourceLine
  | .word name :: rest =>
    match commandNames.lookup name, operandsOf rest with
    | some c, some (os, e) => some ⟨dests, c, os, e⟩
    | _, _ => none
  | _ => none

/-- A line of tokens (R77). -/
def lineOfTokens (ts : List Token) : Option SourceLine :=
  let left := ts.takeWhile (· ≠ .arrow)
  match ts.drop left.length with
  | [] => commandLine [] ts
  | _ :: right => (destsOf left).bind fun dests => commandLine dests right

/-- The command a line of text writes; `none` where it writes none (R77). -/
def readLine (line : String) : Option SourceLine := (tokensOf line).bind lineOfTokens

/-- The commands of a line: one, or the expansion of a pseudo-command (R79). -/
def SourceLine.lines (l : SourceLine) : Option (List Line) :=
  match l.command with
  | .core m => some [⟨l.dests, m, l.operands⟩]
  | .pseudo p => expand p l.dests l.operands

/-- Runs a program: its lines one after another, a failed one included, and whether every response was the one its line
states (R77). `none` where a line is no command. -/
def runProgram : List String → HostRun → Option (HostRun × Bool)
  | [], h => some (h, true)
  | line :: rest, h =>
    match readLine line with
    | none => none
    | some l =>
      match l.lines.bind fun ls => runSequence ls h with
      | none => none
      | some h' => (runProgram rest h').map fun (h'', asStated) => (h'', responseStated l.expected h'.last && asStated)

end Sys2Proof.Machine
end

