-- ==== Sys2Proof/Tests/Slice0.lean ====
section
/-! SUPPORT. Tests: packets written out from the encoding tables, one-step vectors of 95_test_vectors.md, and for every
statement with hypotheses values that meet them. -/

namespace Sys2Proof.Tests

open Sys2Proof.Machine

/-! ### Helpers -/

/-- `n` bytes written as one hexadecimal numeral, the first byte leftmost. -/
def hx (n v : Nat) : Bytes := (List.range n).map fun k => BitVec.ofNat 8 (v >>> (8 * (n - 1 - k)))

/-- The same as a 32-byte string. -/
def hx32 (v : Nat) : Bytes32 := ⟨hx 32 v, by simp [hx]⟩

/-- A state with a bank and one earlier answer, so that a lost answer shows. -/
def atBank (bank : Nat) : State := { bank := BitVec.ofNat 254 bank, port := [], sent := [[0x00]] }

/-- The bank and the answers of the state an outcome ends in. -/
def seen : Outcome → Option (Nat × List Packet)
  | .next t => some (t.bank.toNat, t.sent)
  | .fault _ => none
  | .refused _ => none

/-- What decoding answers, as data. -/
def read (p : Packet) : Option Instr × Option Illegal :=
  match decode p with
  | .ok i => (some i, none)
  | .error why => (none, some why)

/-- One step on a packet sent to the block after reset. -/
def first (p : Packet) : Option (Nat × List Packet) := seen (step (State.reset.offer p))

theorem test_hx : hx 3 0x0a0b0c = [0x0a, 0x0b, 0x0c] := by decide

/-! ### WellFormed: the one check it makes, refused past its boundary -/

theorem test_message_at_limit_wellFormed :
    (Instr.hsSplit (List.replicate Config.maxMsgBytes 0)).WellFormed := by
  simp [Instr.WellFormed, Instr.wellFormed]

theorem test_message_over_limit_refused :
    (Instr.hsSplit (List.replicate (Config.maxMsgBytes + 1) 0)).wellFormed = false := by
  simp [Instr.wellFormed]

theorem test_empty_message_wellFormed : (Instr.hsSplit []).WellFormed := by decide

/-! ### Decode: one packet per command, written out from R62, R64 and R66 -/

theorem test_decode_hsSplit_empty : read [0x10] = (some (.hsSplit []), none) := by decide

theorem test_decode_hsSplit (h : 3 ≤ Config.maxMsgBytes) :
    decode [0x10, 0x61, 0x62, 0x63] = .ok (.hsSplit [0x61, 0x62, 0x63]) :=
  if_neg (Nat.not_lt.mpr h)

/-- The packet of V9. -/
def packetV9 : Packet := hx 105 0x20ffc4272b72f86f1edb4ece6b3c8ed8872cf1a1bf08e4b08bc5a1cb56351927186a09e667bb67ae853c6ef372a54ff53a510e527f9b05688c1f83d9ab5be0cd192b02a082c67178f2dffd6021bb2bd5b0af676290809ec3a53191dd81c7f70a4b28688a362182986f

/-- The witness of V1 and V9. -/
def witnessV9 : RoundWitness :=
  { pen := ⟨0xffc4272b, 0x72f86f1e, 0xdb4ece6b, 0x3c8ed887, 0x2cf1a1bf, 0x08e4b08b, 0xc5a1cb56, 0x35192718⟩
    init := ⟨0x6a09e667, 0xbb67ae85, 0x3c6ef372, 0xa54ff53a, 0x510e527f, 0x9b05688c, 0x1f83d9ab, 0x5be0cd19⟩
    mw := 0x2b02a082, rc := 0xc67178f2 }

/-- The digest of V1. -/
def digestV1 : Bytes32 := hx32 0xdffd6021bb2bd5b0af676290809ec3a53191dd81c7f70a4b28688a362182986f

theorem test_decode_frvVerify : read packetV9 = (some (.frvVerify witnessV9 digestV1), none) := by decide +kernel

theorem test_decode_ccFromLimbs :
    read (0x30 :: (List.replicate 31 0 ++ [0x01] ++ List.replicate 31 0 ++ [0x02])) =
      (some (.ccFromLimbs 1 2), none) := by decide +kernel

theorem test_decode_ccToLimbs : read (0x31 :: (0xdf :: List.replicate 31 0)) =
    (some (.ccToLimbs ⟨0xdf :: List.replicate 31 0, rfl⟩), none) := by decide +kernel

theorem test_decode_ccFromPoint :
    read (0x32 :: (List.replicate 31 0 ++ [0x01] ++ List.replicate 32 0xff)) =
      (some (.ccFromPoint 1 (2 ^ 256 - 1)), none) := by decide +kernel

theorem test_decode_ccToPoint :
    read (0x33 :: (0x01 :: List.replicate 31 0 ++ List.replicate 31 0 ++ [0x02])) =
      (some (.ccToPoint ⟨0x01 :: List.replicate 31 0, rfl⟩ ⟨List.replicate 31 0 ++ [0x02], rfl⟩), none) := by
  decide +kernel

theorem test_decode_scbLoad : read (0x40 :: (List.replicate 30 0 ++ [0x03, 0xff])) =
    (some (.scbLoad 0x3ff), none) := by decide +kernel

theorem test_decode_scbStore : read [0x41] = (some .scbStore, none) := by decide

theorem test_decode_scbGet : read (0x42 :: (List.replicate 31 0 ++ [0x18])) =
    (some (.scbGet 24), none) := by decide +kernel

theorem test_decode_scbSet :
    read (0x43 :: (List.replicate 31 0 ++ [0x05] ++ List.replicate 31 0 ++ [0x07])) =
      (some (.scbSet 5 7), none) := by decide +kernel

theorem test_decode_scbInc : read (0x44 :: List.replicate 32 0) = (some (.scbInc 0), none) := by decide +kernel

theorem test_decode_scbIsFull : read (0x45 :: (List.replicate 31 0 ++ [0x01])) =
    (some (.scbIsFull 1), none) := by decide +kernel

theorem test_decode_scbTotal : read [0x46] = (some .scbTotal, none) := by decide

theorem test_decode_scbFindMax : read [0x47] = (some .scbFindMax, none) := by decide

/-- V40 to V45: what is no command, and why. -/
theorem test_decode_illegal :
    read [] = (none, some .length) ∧ read [0x00] = (none, some .opcode) ∧
    read (0x48 :: List.replicate 32 0) = (none, some .opcode) ∧ read [0x41, 0x00] = (none, some .length) ∧
    read (0x42 :: List.replicate 31 0) = (none, some .length) ∧
    read (0x20 :: List.replicate 103 0) = (none, some .length) := by decide +kernel

/-- A message one byte too long (R67, R75). -/
theorem test_decode_long_message :
    decode (0x10 :: List.replicate (Config.maxMsgBytes + 1) 0) = .error .length := by
  have h : Config.maxMsgBytes < (List.replicate (Config.maxMsgBytes + 1) (0 : Byte)).length := by simp
  exact if_pos h

/-- The table's bit numbering: byte 0 is bits 7 to 0, and the bytes the row has no bits for are 0. -/
theorem test_decodeTableWord :
    decodeTableWord 8 0x44 = some (.scbInc 0) ∧ decodeTableWord 16 0xdf31 =
      some (.ccToLimbs ⟨0xdf :: List.replicate 31 0, rfl⟩) ∧ decodeTableWord 8 0x48 = none := by decide +kernel

/-! ### One step each, against 95_test_vectors.md -/

/-- V1. -/
theorem test_hsSplit_hello :
    seen (exec (.hsSplit (hx 13 0x48656c6c6f2c20576f726c6421)) (atBank 0x3ff)) =
      some (0x3ff, [[0x00], hx 106 0x0000ffc4272b72f86f1edb4ece6b3c8ed8872cf1a1bf08e4b08bc5a1cb56351927186a09e667bb67ae853c6ef372a54ff53a510e527f9b05688c1f83d9ab5be0cd192b02a082c67178f2dffd6021bb2bd5b0af676290809ec3a53191dd81c7f70a4b28688a362182986f]) := by
  decide +kernel

/-- V5: the shortest message of two blocks, whose chaining state is not IV. -/
theorem test_hsSplit_two_blocks :
    splitWitness (List.replicate 56 0x61) =
      { pen := ⟨0x8ff0243d, 0xabb48b1e, 0x7b8fd1a4, 0x86502f17, 0x374342c0, 0xbe35234a, 0x49912450, 0xf64cec26⟩
        init := ⟨0x97539b85, 0x1c7ee50b, 0x0b226ec5, 0x4b1f3dbb, 0xe4f116c6, 0xe49b2dd0, 0x31444d1e, 0x25354f3a⟩
        mw := 0xb9018b52, rc := 0xc67178f2 } := by
  decide +kernel

/-- V9 and V10: the witness of V1 is accepted, and rejected with one bit of `mw` flipped. -/
theorem test_frvVerify :
    seen (exec (.frvVerify witnessV9 digestV1) (atBank 0x3ff)) = some (0x3ff, [[0x00], [0x00, 0x00]]) ∧
    seen (exec (.frvVerify { witnessV9 with mw := 0x2b02a083 } digestV1) (atBank 0x3ff)) =
      some (0x3ff, [[0x00], [0x02, 0x01]]) := by
  decide +kernel

/-- V9: the intermediate values of the bit functions. -/
theorem test_bit_functions :
    bsig1 witnessV9.pen.e = 0xb3868724 ∧ ch witnessV9.pen.e witnessV9.pen.f witnessV9.pen.g = 0xc9e0eacb ∧
    bsig0 witnessV9.pen.a = 0xd6325814 ∧ maj witnessV9.pen.a witnessV9.pen.b witnessV9.pen.c = 0xfbcc6f2b := by
  decide

/-- V11: two changed words that keep `rc +32 mw`. -/
theorem test_frvVerify_sum :
    seen (exec (.frvVerify { witnessV9 with mw := 0x2b02a081, rc := 0xc67178f3 } digestV1) (atBank 0)) =
      some (0, [[0x00], [0x00, 0x00]]) := by
  decide +kernel

/-- V21. -/
theorem test_ccFromLimbs : seen (exec (.ccFromLimbs 1 2) (atBank 0x3ff)) =
    some (0x3ff, [[0x00], hx 34 0x0000000000000000000000000000000000000100000000000000000000000000000002]) := by
  decide +kernel

/-- V22: the three ways a limb is out of bound. -/
theorem test_ccFromLimbs_bounds :
    seen (exec (.ccFromLimbs (2 ^ 128) 0) (atBank 1)) = some (1, [[0x00], [0x01, 0x01]]) ∧
    seen (exec (.ccFromLimbs 0 (2 ^ 128)) (atBank 1)) = some (1, [[0x00], [0x01, 0x02]]) ∧
    seen (exec (.ccFromLimbs (2 ^ 255) (2 ^ 128)) (atBank 1)) = some (1, [[0x00], [0x01, 0x01]]) := by
  decide +kernel

/-- V24. -/
theorem test_ccToLimbs : seen (exec (.ccToLimbs digestV1) (atBank 0x3ff)) =
    some (0x3ff, [[0x00], hx 66 0x000000000000000000000000000000000000dffd6021bb2bd5b0af676290809ec3a5000000000000000000000000000000003191dd81c7f70a4b28688a362182986f]) := by
  decide +kernel

/-- V26. -/
theorem test_ccFromPoint : seen (exec (.ccFromPoint 1 (2 ^ 256 - 1)) (atBank 2)) =
    some (2, [[0x00], [0x00, 0x00] ++ hx 32 1 ++ List.replicate 32 0xff]) := by
  decide +kernel

/-- V28. -/
theorem test_ccToPoint : seen (exec (.ccToPoint (hx32 0x0100) (hx32 0)) (atBank 2)) =
    some (2, [[0x00], [0x00, 0x00] ++ hx 32 256 ++ hx 32 0]) := by
  decide +kernel

/-- V37. -/
theorem test_scbLoad :
    seen (exec (.scbLoad (2 ^ 254 - 1)) (atBank 0x3ff)) = some (2 ^ 254 - 1, [[0x00], [0x00, 0x00]]) ∧
    seen (exec (.scbLoad (2 ^ 254)) (atBank 0x3ff)) = some (0x3ff, [[0x00], [0x01, 0x05]]) := by
  decide +kernel

/-- P2, line 1030. -/
theorem test_scbStore : seen (exec .scbStore (atBank 0x3ff)) =
    some (0x3ff, [[0x00], [0x00, 0x00] ++ List.replicate 30 0 ++ [0x03, 0xff]]) := by
  decide +kernel

/-- P3, lines 3 to 5: the counter read is the one asked for. -/
theorem test_scbGet :
    seen (exec (.scbGet 24) (atBank 0x100000000000000000000000000000000000000000000001c00003ffffc05)) =
      some (0x100000000000000000000000000000000000000000000001c00003ffffc05, [[0x00], 0 :: 0 :: hx 32 1]) := by
  decide +kernel

/-- V34: the id is compared with all its 256 bits. -/
theorem test_scbGet_range :
    seen (exec (.scbGet 25) (atBank 5)) = some (5, [[0x00], [0x03, 0x01]]) ∧
    seen (exec (.scbGet 256) (atBank 5)) = some (5, [[0x00], [0x03, 0x01]]) ∧
    seen (exec (.scbGet (2 ^ 256 - 1)) (atBank 5)) = some (5, [[0x00], [0x03, 0x01]]) := by
  decide +kernel

/-- V38: setting a counter keeps the headroom and the others. -/
theorem test_scbSet :
    seen (exec (.scbSet 3 0) (atBank 0x3c00000000000000000000000000000000000000000002400000000240000000)) =
      some (0x3c00000000000000000000000000000000000000000002400000000000000000, [[0x00], [0x00, 0x00]]) := by
  decide +kernel

/-- V35: the id is checked before the value. -/
theorem test_scbSet_errors :
    seen (exec (.scbSet 5 1024) (atBank 9)) = some (9, [[0x00], [0x01, 0x03]]) ∧
    seen (exec (.scbSet 25 1024) (atBank 9)) = some (9, [[0x00], [0x03, 0x01]]) := by
  decide +kernel

/-- V33: the last increment that succeeds, and the first that does not. -/
theorem test_scbInc :
    seen (exec (.scbInc 0) (atBank 0x3fe)) = some (0x3ff, [[0x00], [0x00, 0x00]]) ∧
    seen (exec (.scbInc 0) (atBank 0x3ff)) = some (0x3ff, [[0x00], [0x01, 0x04]]) := by
  decide +kernel

/-- P3, line 10: the top counter. -/
theorem test_scbInc_top :
    seen (exec (.scbInc 24) (atBank 0x100000000000000000000000000000000000000000000001c00003ffffc05)) =
      some (0x200000000000000000000000000000000000000000000001c00003ffffc05, [[0x00], [0x00, 0x00]]) := by
  decide +kernel

/-- V36. -/
theorem test_scbIsFull :
    seen (exec (.scbIsFull 2) (atBank 0x100000000000000000000000000000000000000000000000000003ffffc05)) =
      some (0x100000000000000000000000000000000000000000000000000003ffffc05, [[0x00], [0, 0, 0x01]]) ∧
    seen (exec (.scbIsFull 0) (atBank 0x100000000000000000000000000000000000000000000000000003ffffc05)) =
      some (0x100000000000000000000000000000000000000000000000000003ffffc05, [[0x00], [0, 0, 0x00]]) := by
  decide +kernel

/-- V36 and V37: the exact sum, with the headroom ignored. -/
theorem test_scbTotal :
    totalCount 0x100000000000000000000000000000000000000000000000000003ffffc05 = 2052 ∧
    seen (exec .scbTotal (atBank (2 ^ 254 - 1))) = some (2 ^ 254 - 1, [[0x00], 0 :: 0 :: hx 32 0x63e7]) := by
  decide +kernel

/-- V36: a tie goes to the lowest index. -/
theorem test_scbFindMax :
    seen (exec .scbFindMax (atBank 0x100000000000000000000000000000000000000000000000000003ffffc05)) =
      some (0x100000000000000000000000000000000000000000000000000003ffffc05,
        [[0x00], 0 :: 0 :: (hx 32 1 ++ hx 32 1023)]) := by
  decide +kernel

/-- V30 and V41 by whole steps from reset: a command packet and an illegal one. -/
theorem test_step :
    first [0x41] = some (0, [0 :: 0 :: List.replicate 32 0]) ∧ first [0x00] = some (0, [[0x04, 0x01]]) ∧
    first [] = some (0, [[0x04, 0x02]]) := by
  decide +kernel

/-- Reset between commands and during one (R216). -/
theorem test_reset :
    seen (step { atBank 7 with port := [.reset] }) = some (0, [[0x00]]) ∧
    seen (step { atBank 7 with port := [.resetDuring (0x44 :: List.replicate 32 0)] }) = some (0, [[0x00]]) := by
  decide +kernel

/-! ### The assembler syntax (R77 to R79) -/

/-- The witness literal of R125's example, and a digest as a byte string. -/
theorem test_readLine_witness : readLine "FRV.VERIFY %w, h\"00ff\" !MISMATCH.DIGEST ; a comment, \"anything\"" =
    some ⟨[], .core .frvVerify, [.var "w", .lit (.hex "00ff")], some .digest⟩ ∧
    witnessLiteral "pen=ffc4272b 72f86f1e db4ece6b 3c8ed887 2cf1a1bf 08e4b08b c5a1cb56 35192718, init=6a09e667 bb67ae85 3c6ef372 a54ff53a 510e527f 9b05688c 1f83d9ab 5be0cd19, mw=2b02a082, rc=c67178f2" =
      some witnessV9 := by decide +kernel

/-- Lines of P1, P4 and P3: a text, power expressions, a hexadecimal integer, and lines that are none. -/
theorem test_readLine :
    readLine "%w, %d <- HS.SPLIT \"Hello, World!\"" =
      some ⟨["w", "d"], .core .hsSplit, [.lit (.text "Hello, World!")], none⟩ ∧
    readLine "%m <- CC.FROMLIMBS 2^128-1, 2^128" =
      some ⟨["m"], .core .ccFromLimbs, [.lit (.powerLess 2 128 1), .lit (.power 2 128)], none⟩ ∧
    readLine "SCB.LOAD 0x3ff" = some ⟨[], .core .scbLoad, [.lit (.number 1023)], none⟩ ∧
    readLine "SCB.SET 5," = none ∧ readLine "<- SCB.STORE" = none ∧ readLine "SCB.HALT" = none := by
  decide +kernel

/-- P3 whole, from its text: every response is the one its line states, and the values at its end. -/
theorem test_program_P3 :
    ((runProgram ["SCB.LOAD 0x100000000000000000000000000000000000000000000000000003ffffc05",
        "SCB.SET 5, 7", "%a <- SCB.GET 5", "%b <- SCB.GET 4", "%c <- SCB.GET 24",
        "SCB.SET 25, 0        !RANGE.COUNTER_ID", "SCB.SET 5, 1024      !VALIDATION.COUNTER_VALUE",
        "SCB.SET 25, 1024     !RANGE.COUNTER_ID", "SCB.INC 1            !VALIDATION.SATURATED", "SCB.INC 24",
        "%t <- SCB.TOTAL", "%i, %m <- SCB.FINDMAX", "%s <- SCB.STORE"] ⟨[], State.reset, []⟩).map
      fun (h, asStated) => (asStated, h.block.bank.toNat, h.vars.lookup "t", h.vars.lookup "i", h.vars.lookup "m")) =
      some (true, 0x200000000000000000000000000000000000000000000001c00003ffffc05, some (.int 2060), some (.int 1),
        some (.int 1023)) := by
  decide +kernel

/-! ### Values that meet the hypotheses of the statements -/

/-- DecodeOfEncode, ErrorsOfEachCommand, HashAndCodecIgnoreBank: commands of each unit, and a message at its limit. -/
theorem witness_wellFormed :
    (Instr.ccToLimbs digestV1).WellFormed ∧ (Instr.ccToLimbs digestV1).unit ≠ .scb ∧
    (Instr.hsSplit (List.replicate Config.maxMsgBytes 0)).WellFormed ∧
    (Instr.frvVerify witnessV9 digestV1).unit ≠ .scb ∧ (Instr.scbSet (2 ^ 256 - 1) 1024).WellFormed :=
  ⟨rfl, by decide, test_message_at_limit_wellFormed, by decide, rfl⟩

/-- EncodeOfDecode, StepRunsDecoded, OneResponsePerPacket. -/
theorem witness_decodes :
    decode [0x41#8] = .ok .scbStore ∧ Instr.scbStore.WellFormed ∧
    (State.reset.offer [0x41#8]).port = .packet [0x41#8] :: [] := ⟨rfl, rfl, rfl⟩

/-- DecoderVerdicts: each clause at a boundary of its range. -/
theorem witness_verdicts :
    read (0x0f :: []) = (none, some .opcode) ∧ read (0x48 :: List.replicate 32 0) = (none, some .opcode) ∧
    read (0xff :: []) = (none, some .opcode) ∧
    decode (0x10 :: List.replicate Config.maxMsgBytes 0) = .ok (.hsSplit (List.replicate Config.maxMsgBytes 0)) ∧
    decode (0x10 :: List.replicate (Config.maxMsgBytes + 1) 0) = .error .length ∧
    (read (0x41 :: List.replicate 0 0)).2 = none ∧ (read (0x41 :: List.replicate 1 0)).2 = some .length ∧
    (read (0x40 :: List.replicate 32 0)).2 = none ∧ (read (0x40 :: List.replicate 33 0)).2 = some .length ∧
    (read (0x43 :: List.replicate 64 0)).2 = none ∧ (read (0x43 :: List.replicate 63 0)).2 = some .length ∧
    (read (0x20 :: List.replicate 104 0)).2 = none ∧ (read (0x20 :: List.replicate 105 0)).2 = some .length := by
  have h : ¬ Config.maxMsgBytes < (List.replicate Config.maxMsgBytes (0 : Byte)).length := by simp
  refine ⟨?_, ?_, ?_, if_neg h, test_decode_long_message, ?_, ?_, ?_, ?_, ?_, ?_, ?_, ?_⟩ <;> decide +kernel

/-- BigEndianBytes and FoldAndBigEndian: the largest value of a length, and the last byte of it. -/
theorem witness_bytes : (65535 : Nat) < 2 ^ (8 * 2) ∧ (1 : Nat) < 2 ∧ (0 : Nat) < 2 ^ (8 * 0) := by decide

/-- PlacedWordRuns. -/
theorem witness_placed : decodeTableWord 8 0x47 = some .scbFindMax := by decide

/-- StepAnswersIllegal: an opcode and a length. -/
theorem witness_illegal :
    decode [0x00#8] = .error .opcode ∧ (State.reset.offer [0x00#8]).port = .packet [0x00#8] :: [] ∧
    decode [] = .error .length ∧ (State.reset.offer []).port = .packet [] :: [] := ⟨rfl, rfl, rfl, rfl⟩

/-- RunAnswersEveryPacket and EqualBankEqualAnswer. -/
theorem witness_port :
    ({ State.reset with port := [[0x41#8], [], [0x47#8]].map .packet } : State).port =
      [.packet [0x41#8], .packet [], .packet [0x47#8]] ∧
    (atBank 7).bank = 7 ∧ ((atBank 7).offer [0x41#8]).port = .packet [0x41#8] :: (atBank 7).port := ⟨rfl, rfl, rfl⟩

/-- OnlyThreeCommandsWriteBank. -/
theorem witness_reader : ∃ t : State, exec .scbTotal (atBank 7) = .next t ∧ (∀ v, Instr.scbTotal ≠ .scbLoad v) ∧
    (∀ id v, Instr.scbTotal ≠ .scbSet id v) ∧ ∀ id, Instr.scbTotal ≠ .scbInc id :=
  ⟨_, rfl, by simp, by simp, by simp⟩

/-- ErrorsChangeNothing and ErrorsAreLocal: SCB.GET of counter 25, then SCB.STORE. -/
theorem witness_error : ∃ t u : State,
    step { atBank 7 with port := [.packet (encode (.scbGet 25)), .packet [0x41]] } = .next t ∧
    t.sent = (atBank 7).sent ++ [[0x03, 0x01]] ∧ ([0x03, 0x01] : Packet).head? ≠ some 0x00#8 ∧ step t = .next u := by
  refine ⟨{ atBank 7 with port := [.packet [0x41]], sent := [[0x00], [0x03, 0x01]] }, _, ?_, rfl, by decide, rfl⟩
  rfl

/-- ResponsesStayLegal. -/
theorem witness_invariant : State.reset.Inv ∧ ∃ t : State, step (State.reset.offer [0x41]) = .next t :=
  ⟨fun _ h => (List.not_mem_nil h).elim, _, rfl⟩

/-- ResetLeavesZeroBank, ResetAbandonsTheCommand and EmptyPortWaits. -/
theorem witness_reset :
    (24 : Nat) ≤ 24 ∧ ({ atBank 7 with port := [.reset] } : State).port = .reset :: [] ∧
    ({ atBank 7 with port := [.resetDuring [0x41]] } : State).port = .resetDuring [0x41] :: [] ∧
    State.reset.port = [] := ⟨Nat.le_refl _, rfl, rfl, rfl⟩

/-- HsSplitAnswers and HsSplitBeyondTrailer: the longest message with a trailer, and the shortest without. -/
theorem witness_lengths :
    (List.replicate (2 ^ 61 - 1) (0 : Byte)).length ≤ 2 ^ 61 - 1 ∧
    2 ^ 61 ≤ (List.replicate (2 ^ 61) (0 : Byte)).length := by
  simp only [List.length_replicate]
  omega

/-- PaddingReachesBlockBoundary, BlockCountByLength, SplitWitnessFacts: fewer zero bytes than 55, the two tails that
meet, and the longest message of one block. -/
theorem witness_padding :
    (List.replicate 55 (0x61 : Byte)).length ≤ 55 ∧
    padZeros 0 = 55 ∧ padZeros 55 = 0 ∧ padZeros 56 = 63 ∧ blockCount 55 = 1 ∧ blockCount 56 = 2 ∧
    blockCount 119 = 2 ∧ blockCount 120 = 3 := by decide

/-- ScheduleRecurrence: the last word of the block, the first and the last of the recurrence. -/
theorem witness_schedule : (15 : Nat) < 16 ∧ (16 : Nat) ≤ 63 ∧ (63 : Nat) ≤ 63 := by decide

/-- SplitWitnessVerifies: the last block of two, its last byte and its last round. ChooseAndMajority: the top bit. -/
theorem witness_split : 1 < blockCount (List.replicate 56 (0x61 : Byte)).length ∧ (63 : Nat) < 64 ∧ (63 : Nat) ≤ 63 ∧
    (31 : Nat) < 32 := by decide

/-- WordOperations: the least and the greatest rotation. -/
theorem witness_rotations : (0 : Nat) < 1 ∧ (31 : Nat) < 32 ∧ rotr 1 1 = 0x80000000#32 ∧ rotr 1 31 = 2#32 := by
  decide

/-- HsCheckAlwaysAccepts: the empty message, and a message at the limit. -/
theorem witness_hsCheck :
    ([] : Bytes).length ≤ Config.maxMsgBytes ∧
    (List.replicate Config.maxMsgBytes (0 : Byte)).length ≤ Config.maxMsgBytes ∧
    (HostRun.mk [("m", .bytes [])] State.reset []).vars.lookup "m" = some (.bytes []) :=
  ⟨Nat.zero_le _, by simp, by decide⟩

/-- OnlyTheSumOfMwAndRcCounts: the words of V11. -/
theorem witness_sum : (0xc67178f3#32) + 0x2b02a081#32 = witnessV9.rc + witnessV9.mw := by decide

/-- SingleFieldChangeRejects: an accepted witness, the same with one word changed, another digest. -/
theorem witness_change :
    Accepts witnessV9 digestV1 ∧
    (witnessWords witnessV9)[17]? ≠ (witnessWords { witnessV9 with rc := 0 })[17]? ∧
    (∀ j : Nat, j ≠ 17 → (witnessWords witnessV9)[j]? = (witnessWords { witnessV9 with rc := 0 })[j]?) ∧
    hx32 0 ≠ digestV1 := by
  have h : (replay witnessV9).bytes = digestV1.bytes := by decide +kernel
  refine ⟨fun s => by simp only [exec, execFrvVerify, if_pos h]; rfl, by decide, ?_, by decide +kernel⟩
  intro j hj
  rcases Nat.lt_or_ge j 17 with h17 | h17
  · interval_cases j <;> rfl
  · rw [List.getElem?_eq_none (by simp [witnessWords, lanes]; omega),
      List.getElem?_eq_none (by simp [witnessWords, lanes]; omega)]

/-- CcFromLimbsAnswers and CodecRoundTrips: the largest limb, and the first that is none. -/
theorem witness_limbs :
    (2 ^ 128 - 1 : Int256).toNat < 2 ^ 128 ∧ 2 ^ 128 ≤ (2 ^ 128 : Int256).toNat ∧
    (2 ^ 256 - 1 : Nat) < 2 ^ 256 := by decide +kernel

/-- PackedPointComesBack. -/
theorem witness_point :
    (HostRun.mk [("x", .int 1), ("y", .int 2)] State.reset []).vars.lookup "x" = some (.int 1) ∧
    (HostRun.mk [("x", .int 1), ("y", .int 2)] State.reset []).vars.lookup "y" = some (.int 2) := by decide

/-- CounterWriteChangesOnlyItsBits and ScansAgreeWithDirectAccess: the top counter at its top value, and the bits on
both sides of it. -/
theorem witness_counter :
    (24 : Nat) ≤ 24 ∧ (1023 : Nat) ≤ 1023 ∧ ¬ (10 * 24 ≤ 250 ∧ 250 ≤ 10 * 24 + 9) ∧
    ¬ (10 * 24 ≤ 239 ∧ 239 ≤ 10 * 24 + 9) := by decide

/-- ScbLoadAnswers and HeadroomIsCarried: the largest scalar, and the first that is none. -/
theorem witness_scalar :
    (2 ^ 254 - 1 : Int256).toNat < 2 ^ 254 ∧ 2 ^ 254 ≤ (2 ^ 254 : Int256).toNat := by decide +kernel

/-- ScbGetAnswers, ScbSetAnswers, ScbIncAnswers, ScbIsFullAnswers, StoreSeesWhatSetWrote: the ids and the values where
their clauses meet. -/
theorem witness_ids :
    24 < (25 : Int256).toNat ∧ (24 : Int256).toNat ≤ 24 ∧ 1023 < (1024 : Int256).toNat ∧
    (1023 : Int256).toNat ≤ 1023 ∧ slot (atBank 0x3ff).bank (0 : Int256).toNat = 1023 ∧
    slot (atBank 0x3fe).bank (0 : Int256).toNat ≠ 1023 ∧ (∃ t : State, exec (.scbSet 24 1023) (atBank 0) = .next t) := by
  refine ⟨?_, ?_, ?_, ?_, ?_, ?_, ?_⟩
  · decide
  · decide
  · decide
  · decide
  · decide +kernel
  · decide +kernel
  · exact ⟨{ atBank (1023 * 2 ^ 240) with sent := [[0x00], [0x00, 0x00]] }, by rfl⟩

/-- ScbTotalAnswers, ScbFindMaxAnswers, HeadroomIsCarried: two banks that differ in the headroom only. -/
theorem witness_headroom :
    (atBank (15 * 2 ^ 250 + 9)).bank.toNat % 2 ^ 250 = (atBank 9).bank.toNat % 2 ^ 250 ∧
    (atBank (15 * 2 ^ 250 + 9)).bank ≠ (atBank 9).bank := by decide +kernel

/-- SlotsAreIndependent and LoadAndSetAreIdempotent: SCB.SET of counter 5, SCB.LOAD, and a reader. -/
theorem witness_writers :
    (∃ t : State, exec (.scbSet 5 7) (atBank 0) = .next t) ∧ (24 : Nat) ≤ 24 ∧ (24 : Nat) ≠ (5 : Int256).toNat ∧
    (∃ t : State, exec (.scbLoad 5) (atBank 0) = .next t) ∧ ∃ t : State, exec (.scbGet 24) (atBank 0) = .next t :=
  ⟨⟨{ atBank (7 * 2 ^ 50) with sent := [[0x00], [0x00, 0x00]] }, by rfl⟩, Nat.le_refl _, by decide,
    ⟨{ atBank 5 with sent := [[0x00], [0x00, 0x00]] }, by rfl⟩,
    ⟨{ atBank 0 with sent := [[0x00], 0 :: 0 :: List.replicate 32 0] }, by rfl⟩⟩

/-- SaturationOfCounterZero. -/
theorem witness_saturation :
    State.reset.bank = 0 ∧ (1023 : Nat) ≤ 1023 ∧ (atBank 0x3ff).bank = 0x3ff ∧ (1 : Nat) ≤ 1 ∧ (24 : Nat) ≤ 24 := by
  decide

end Sys2Proof.Tests
end

/-! PROOFS. The statements of 00_scope.md: byte order, the word operations, the codec, and the step. The facts they
rest on stand first, each about a definition of the model. -/

/-! ### Byte order (R14, R15) -/

namespace Sys2Proof.Machine

/-- Byte `k` of `BE(n, v)` (R14). -/
theorem be_getElem? (v : Nat) {n k : Nat} (h : k < n) :
    (be n v)[k]? = some (BitVec.ofNat 8 (v / 256 ^ (n - 1 - k))) := by
  induction n generalizing k with
  | zero => omega
  | succ n ih =>
    cases k with
    | zero => rfl
    | succ k =>
      rw [be, List.getElem?_cons_succ, ih (by omega), show n + 1 - 1 - (k + 1) = n - 1 - k by omega]

end Sys2Proof.Machine

namespace Sys2Proof.Proofs

open Sys2Proof.Machine

/-- Settles O5, by the length and the byte `k` of `BE`. -/
theorem bigEndianBytes : Obligations.BigEndianBytes := by
  intro n v k _
  refine ⟨be_length n v, fun hk => ?_⟩
  rw [be_getElem? v hk, Option.map_some, BitVec.toNat_ofNat]

/-- Settles O6: the recursion of `fold` and the two undoings, with `256^n` for `2^(8n)`. -/
theorem foldAndBigEndian : Obligations.FoldAndBigEndian :=
  ⟨fold_nil, fold_concat, fun n _ hv => fold_be (pow256 n ▸ hv), be_fold⟩

end Sys2Proof.Proofs

/-! ### The word operations (R16) -/

namespace Sys2Proof.Machine

/-- SHR divides (R16). -/
theorem shr_toNat (x : Word) (n : Nat) : (shr x n).toNat = x.toNat / 2 ^ n := by
  rw [shr, BitVec.toNat_ushiftRight, Nat.shiftRight_eq_div_pow]

/-- A rotation by `n` cuts the 32 bits into `n` and `32 - n` (R16). -/
theorem two_pow_32_eq {n : Nat} (hn : n < 32) : 2 ^ 32 = 2 ^ n * 2 ^ (32 - n) := by
  rw [← pow_add, Nat.add_sub_cancel' hn.le]

/-- ROTR puts the low `n` bits, which the shift to the left brings to the top, above the others (R16). -/
theorem rotr_toNat_eq_add (x : Word) {n : Nat} (hn : n < 32) :
    (rotr x n).toNat = x.toNat / 2 ^ n + x.toNat % 2 ^ n * 2 ^ (32 - n) := by
  have hlow : x.toNat / 2 ^ n < 2 ^ (32 - n) := Nat.div_lt_of_lt_mul (two_pow_32_eq hn ▸ x.isLt)
  have hhigh : x.toNat * 2 ^ (32 - n) % 2 ^ 32 = 2 ^ (32 - n) * (x.toNat % 2 ^ n) := by
    rw [two_pow_32_eq hn, Nat.mul_mod_mul_right, Nat.mul_comm]
  rw [rotr, BitVec.toNat_or, BitVec.toNat_ushiftRight, BitVec.toNat_shiftLeft, Nat.shiftRight_eq_div_pow,
    Nat.shiftLeft_eq, hhigh, Nat.or_comm, ← Nat.two_pow_add_eq_or_of_lt hlow, Nat.add_comm, Nat.mul_comm]

/-- ROTR as R16 writes it: the bits a rotation brings around are what is left of the product modulo `2^32`. -/
theorem rotr_toNat (x : Word) {n : Nat} (hn : n < 32) :
    (rotr x n).toNat = (x.toNat / 2 ^ n + x.toNat * 2 ^ (32 - n)) % 2 ^ 32 := by
  calc (rotr x n).toNat = (rotr x n).toNat % 2 ^ 32 := (Nat.mod_eq_of_lt (rotr x n).isLt).symm
    _ = (x.toNat / 2 ^ n + x.toNat % 2 ^ n * 2 ^ (32 - n)) % 2 ^ 32 := by rw [rotr_toNat_eq_add x hn]
    _ = (x.toNat / 2 ^ n + x.toNat * 2 ^ (32 - n)) % 2 ^ 32 := by
        rw [two_pow_32_eq hn, ← Nat.mul_mod_mul_right, Nat.add_mod_mod]

end Sys2Proof.Machine

namespace Sys2Proof.Proofs

open Sys2Proof.Machine

/-- Settles O29: AND and exclusive OR act on each bit of the naturals alone; a rotation is two parts that do not
overlap. -/
theorem wordOperations : Obligations.WordOperations := by
  intro x y
  refine ⟨BitVec.toNat_add x y, BitVec.toNat_not, fun i => ⟨?_, ?_⟩,
    fun n => ⟨shr_toNat x n, fun _ hn => rotr_toNat x hn⟩⟩
  · rw [BitVec.toNat_and, Nat.testBit_and]
  · rw [BitVec.toNat_xor, Nat.testBit_xor]

end Sys2Proof.Proofs

/-! ### The commitment codec (R136 to R139) -/

namespace Sys2Proof.Machine

/-- The point of two codec values is what all their 32 bytes fold to (R139). -/
theorem toPoint_eq (bx byy : Bytes32) : toPoint bx byy = (fold bx.bytes, fold byy.bytes) := by
  rw [toPoint, slice_all bx.bytes 32 bx.size.le, slice_all byy.bytes 32 byy.size.le]

/-- Limbs below `2^128` are accepted (R136). -/
theorem fromLimbs_of_lt {high low : Nat} (hh : high < 2 ^ 128) (hl : low < 2 ^ 128) :
    fromLimbs high low = .ok (limbsInstance high low) := by
  rcases fromLimbs_spec high low with ⟨h, _⟩ | ⟨_, h, _⟩ | ⟨_, _, h⟩
  · exact absurd hh (Nat.not_lt.mpr h)
  · exact absurd hl (Nat.not_lt.mpr h)
  · exact h

/-- A high limb of `2^128` or more is refused, whatever the low one is (R136). -/
theorem fromLimbs_of_high_ge {high : Nat} (low : Nat) (h : 2 ^ 128 ≤ high) :
    fromLimbs high low = .error .limbHigh :=
  if_pos h

/-- Limbs below `2^128` go into 32 bytes and come back out of them (R144). -/
theorem exists_fromLimbs_toLimbs {high low : Nat} (hh : high < 2 ^ 128) (hl : low < 2 ^ 128) :
    ∃ inst, fromLimbs high low = .ok inst ∧ toLimbs inst = (high, low) :=
  ⟨_, fromLimbs_of_lt hh hl, toLimbs_limbsInstance hh hl⟩

/-- 32 bytes go into limbs and come back out of them (R144). -/
theorem fromLimbs_toLimbs (inst : Bytes32) : fromLimbs (toLimbs inst).1 (toLimbs inst).2 = .ok inst := by
  obtain ⟨hh, hl⟩ := toLimbs_lt inst
  rw [fromLimbs_of_lt hh hl, limbsInstance_toLimbs]

/-- Coordinates below `2^256` go into twice 32 bytes and come back out of them (R144). -/
theorem toPoint_fromPoint {x y : Nat} (hx : x < 2 ^ 256) (hy : y < 2 ^ 256) :
    toPoint (fromPoint x y).1 (fromPoint x y).2 = (x, y) := by
  rw [fromPoint, toPoint_eq, fold_be32 hx, fold_be32 hy]

/-- Twice 32 bytes go into a point and come back out of it (R144). -/
theorem fromPoint_toPoint (bx byy : Bytes32) :
    fromPoint (toPoint bx byy).1 (toPoint bx byy).2 = (bx, byy) := by
  rw [toPoint_eq, fromPoint, be32_fold, be32_fold]

end Sys2Proof.Machine

namespace Sys2Proof.Proofs

open Sys2Proof.Machine

/-- Settles O43: the four round trips, the first limb that is refused, and the largest one. -/
theorem codecRoundTrips : Obligations.CodecRoundTrips :=
  ⟨fun _ _ => exists_fromLimbs_toLimbs, fromLimbs_toLimbs, fun _ _ => toPoint_fromPoint, fromPoint_toPoint,
    fromLimbs_of_high_ge 0 (Nat.le_refl _), exists_fromLimbs_toLimbs (by decide) (by decide)⟩

end Sys2Proof.Proofs

/-! ### What the decoder lets through (R62 to R67) -/

namespace Sys2Proof

open Sys2Proof.Machine

/-- Format N lets the empty operand string through. -/
theorem decodeN_ok {i j : Instr} {ops : Bytes} (h : decodeN i ops = .ok j) : ops = [] ∧ j = i := by
  unfold decodeN at h
  split at h
  · next hl => cases h; exact ⟨List.length_eq_zero_iff.mp hl, rfl⟩
  · cases h

/-- Format I lets one integer field through. -/
theorem decodeI_ok {mk : Int256 → Instr} {ops : Bytes} {i : Instr} (h : decodeI mk ops = .ok i) :
    ∃ v : Int256, ops = intField v.toNat ∧ i = mk v := by
  unfold decodeI at h
  split at h
  · next hl => cases h; exact ⟨_, (intField_intOf hl).symm, rfl⟩
  · cases h

/-- Format II lets two integer fields through. -/
theorem decodeII_ok {mk : Int256 → Int256 → Instr} {ops : Bytes} {i : Instr} (h : decodeII mk ops = .ok i) :
    ∃ v w : Int256, ops = intField v.toNat ++ intField w.toNat ∧ i = mk v w := by
  unfold decodeII at h
  split at h
  · next hl =>
    cases h
    refine ⟨_, _, ?_, rfl⟩
    rw [intField_intOf (slice_length ops 0 32 (by omega)), intField_intOf (slice_length ops 32 64 (by omega)),
      slice_slice_append ops (by omega) (by omega), slice_all ops 64 hl.le]
  · cases h

/-- Format B lets 32 raw bytes through. -/
theorem decodeB_ok {mk : Bytes32 → Instr} {ops : Bytes} {i : Instr} (h : decodeB mk ops = .ok i) :
    ∃ x : Bytes32, ops = x.bytes ∧ i = mk x := by
  unfold decodeB at h
  split at h
  · cases h; exact ⟨_, rfl, rfl⟩
  · cases h

/-- Format BB lets twice 32 raw bytes through. -/
theorem decodeBB_ok {mk : Bytes32 → Bytes32 → Instr} {ops : Bytes} {i : Instr} (h : decodeBB mk ops = .ok i) :
    ∃ x y : Bytes32, ops = x.bytes ++ y.bytes ∧ i = mk x y := by
  unfold decodeBB at h
  split at h
  · next hl =>
    cases h
    refine ⟨_, _, ?_, rfl⟩
    rw [slice_slice_append ops (by omega) (by omega), slice_all ops 64 hl.le]
  · cases h

/-- Format WD lets a witness and a digest through. -/
theorem decodeWD_ok {mk : RoundWitness → Bytes32 → Instr} {ops : Bytes} {i : Instr}
    (h : decodeWD mk ops = .ok i) :
    ∃ (w : RoundWitness) (d : Bytes32), ops = witnessBytes w ++ d.bytes ∧ i = mk w d := by
  unfold decodeWD at h
  split at h
  · next hl =>
    cases h
    refine ⟨_, _, ?_, rfl⟩
    rw [witnessBytes_witnessOf _ (slice_length ops 0 72 (by omega)), slice_slice_append ops (by omega) (by omega),
      slice_all ops 104 hl.le]
  · cases h

/-- Format M lets a message of at most MAX_MSG_BYTES through (R67). -/
theorem decodeM_ok {mk : Bytes → Instr} {ops : Bytes} {i : Instr} (h : decodeM mk ops = .ok i) :
    ops.length ≤ Config.maxMsgBytes ∧ i = mk ops := by
  unfold decodeM at h
  split at h
  · cases h
  · next hl => cases h; exact ⟨Nat.le_of_not_lt hl, rfl⟩

/-- What an opcode and its operands are read as is well-formed: only the message of HS.SPLIT has a check, and its
format makes it (R67, R104). -/
theorem decodeCommand_wellFormed {op : Byte} {ops : Bytes} {i : Instr} (h : decodeCommand op ops = .ok i) :
    i.WellFormed := by
  unfold decodeCommand at h
  split at h
  · obtain ⟨hl, rfl⟩ := decodeM_ok h
    exact decide_eq_true hl
  · obtain ⟨_, _, _, rfl⟩ := decodeWD_ok h; rfl
  · obtain ⟨_, _, _, rfl⟩ := decodeII_ok h; rfl
  · obtain ⟨_, _, rfl⟩ := decodeB_ok h; rfl
  · obtain ⟨_, _, _, rfl⟩ := decodeII_ok h; rfl
  · obtain ⟨_, _, _, rfl⟩ := decodeBB_ok h; rfl
  · obtain ⟨_, _, rfl⟩ := decodeI_ok h; rfl
  · obtain ⟨_, rfl⟩ := decodeN_ok h; rfl
  · obtain ⟨_, _, rfl⟩ := decodeI_ok h; rfl
  · obtain ⟨_, _, _, rfl⟩ := decodeII_ok h; rfl
  · obtain ⟨_, _, rfl⟩ := decodeI_ok h; rfl
  · obtain ⟨_, _, rfl⟩ := decodeI_ok h; rfl
  · obtain ⟨_, rfl⟩ := decodeN_ok h; rfl
  · obtain ⟨_, rfl⟩ := decodeN_ok h; rfl
  · cases h

/-- What the decoder reads is well-formed (R67). -/
theorem decode_wellFormed {p : Packet} {i : Instr} (h : decode p = .ok i) : i.WellFormed := by
  cases p with
  | nil => cases h
  | cons op ops => exact decodeCommand_wellFormed h

end Sys2Proof

/-! ### What a command can answer (R71, R196) -/

namespace Sys2Proof.Machine

/-- The outcome is an answer of the command in the state: one of the errors of its row of R196, which writes nothing,
or an OK response of its length of R71, after a write of BANK (of the value it has, for a command that writes none). -/
def IsAnswer (i : Instr) (s : State) (o : Outcome) : Prop :=
  (∃ e ∈ mayRaise i, o = raise e s) ∨
  ∃ (b : Bank) (payload : Bytes), (okResponse payload).length = okResponseLength i ∧
    o = respondOK payload (s.writeBank b)

/-- Raising an error of the command's row is an answer of it. -/
theorem isAnswer_raise {i : Instr} {e : Error} (s : State) (he : e ∈ mayRaise i) : IsAnswer i s (raise e s) :=
  .inl ⟨e, he, rfl⟩

/-- An OK response of the command's length, with BANK kept, is an answer of it. -/
theorem isAnswer_respondOK {i : Instr} {payload : Bytes} (s : State)
    (hl : (okResponse payload).length = okResponseLength i) : IsAnswer i s (respondOK payload s) :=
  .inr ⟨s.bank, payload, hl, rfl⟩

/-- An OK response of the command's length, with BANK written, is an answer of it. -/
theorem isAnswer_respondOK_writeBank {i : Instr} {payload : Bytes} (s : State) (b : Bank)
    (hl : (okResponse payload).length = okResponseLength i) :
    IsAnswer i s (respondOK payload (s.writeBank b)) :=
  .inr ⟨b, payload, hl, rfl⟩

/-- An answer is a next state: one response more, the port untouched (R60, R199). -/
theorem IsAnswer.exists_next {i : Instr} {s : State} {o : Outcome} (h : IsAnswer i s o) :
    ∃ (b : Bank) (r : Packet), o = .next ((s.writeBank b).give r) := by
  obtain ⟨e, _, rfl⟩ | ⟨b, payload, _, rfl⟩ := h
  · exact ⟨s.bank, errorResponse e, rfl⟩
  · exact ⟨b, okResponse payload, rfl⟩

@[simp] theorem okResponse_length (payload : Bytes) : (okResponse payload).length = payload.length + 2 := rfl

/-- A well-formed message is short enough for the trailer (R8, R91). -/
theorem length_lt_of_wellFormed {msg : Bytes} (h : (Instr.hsSplit msg).WellFormed) :
    msg.length < Config.trailerLimit :=
  Nat.lt_of_le_of_lt (of_decide_eq_true h) Config.maxMsg.isLt

/-- HS.SPLIT (R104): 72 bytes of witness and 32 of digest. -/
theorem execHsSplit_isAnswer {msg : Bytes} (h : (Instr.hsSplit msg).WellFormed) (s : State) :
    IsAnswer (.hsSplit msg) s (execHsSplit msg s) := by
  rw [execHsSplit, if_pos (length_lt_of_wellFormed h)]
  exact isAnswer_respondOK s (by simp [(splitDigest msg).size, okResponseLength])

/-- FRV.VERIFY (R125): accept or MISMATCH/DIGEST. -/
theorem execFrvVerify_isAnswer (w : RoundWitness) (d : Bytes32) (s : State) :
    IsAnswer (.frvVerify w d) s (execFrvVerify w d s) := by
  unfold execFrvVerify
  split
  · exact isAnswer_respondOK s rfl
  · exact isAnswer_raise s (by simp [mayRaise])

/-- CC.FROMLIMBS (R140): the 32 bytes, or the limb that is too large. -/
theorem execCcFromLimbs_isAnswer (high low : Int256) (s : State) :
    IsAnswer (.ccFromLimbs high low) s (execCcFromLimbs high low s) := by
  unfold execCcFromLimbs
  rcases fromLimbs_spec high.toNat low.toNat with ⟨_, h⟩ | ⟨_, _, h⟩ | ⟨_, _, h⟩
  · rw [h]; exact isAnswer_raise s (by simp [mayRaise])
  · rw [h]; exact isAnswer_raise s (by simp [mayRaise])
  · rw [h]; exact isAnswer_respondOK s (by simp [Bytes32.size, okResponseLength])

/-- CC.TOLIMBS (R141). -/
theorem execCcToLimbs_isAnswer (inst : Bytes32) (s : State) :
    IsAnswer (.ccToLimbs inst) s (execCcToLimbs inst s) :=
  isAnswer_respondOK s (by simp [okResponseLength])

/-- CC.FROMPOINT (R142). -/
theorem execCcFromPoint_isAnswer (x y : Int256) (s : State) :
    IsAnswer (.ccFromPoint x y) s (execCcFromPoint x y s) :=
  isAnswer_respondOK s (by simp [Bytes32.size, okResponseLength])

/-- CC.TOPOINT (R143). -/
theorem execCcToPoint_isAnswer (bx byy : Bytes32) (s : State) :
    IsAnswer (.ccToPoint bx byy) s (execCcToPoint bx byy s) :=
  isAnswer_respondOK s (by simp [okResponseLength])

/-- SCB.LOAD (R168): BANK written, or a scalar that is too wide. -/
theorem execScbLoad_isAnswer (v : Int256) (s : State) : IsAnswer (.scbLoad v) s (execScbLoad v s) := by
  unfold execScbLoad
  split
  · exact isAnswer_raise s (by simp [mayRaise])
  · exact isAnswer_respondOK_writeBank s _ rfl

/-- SCB.STORE (R169). -/
theorem execScbStore_isAnswer (s : State) : IsAnswer .scbStore s (execScbStore s) :=
  isAnswer_respondOK s (by simp [okResponseLength])

/-- SCB.GET (R170). -/
theorem execScbGet_isAnswer (id : Int256) (s : State) : IsAnswer (.scbGet id) s (execScbGet id s) := by
  unfold execScbGet
  rw [getCounter_eq]
  by_cases h : id.toNat > 24
  · rw [if_pos h]; exact isAnswer_raise s (by simp [mayRaise])
  · rw [if_neg h]; exact isAnswer_respondOK s (by simp [okResponseLength])

/-- SCB.SET (R171): the id, then the value, then the write. -/
theorem execScbSet_isAnswer (id newValue : Int256) (s : State) :
    IsAnswer (.scbSet id newValue) s (execScbSet id newValue s) := by
  unfold execScbSet
  rcases setCounter_spec s.bank id.toNat newValue.toNat with ⟨_, h⟩ | ⟨_, _, h⟩ | ⟨_, _, b, h, _⟩
  · rw [h]; exact isAnswer_raise s (by simp [mayRaise])
  · rw [h]; exact isAnswer_raise s (by simp [mayRaise])
  · rw [h]; exact isAnswer_respondOK_writeBank s b rfl

/-- A counter that is not full has its next value set (R163, R164). -/
theorem setCounter_next {bank : Bank} {id : Nat} (hid : id ≤ 24) (hs : slot bank id < 1023) :
    ∃ b, setCounter bank id (slot bank id + 1) = .ok b := by
  rcases setCounter_spec bank id (slot bank id + 1) with ⟨h, _⟩ | ⟨_, h, _⟩ | ⟨_, _, b, h, _⟩
  · omega
  · omega
  · exact ⟨b, h⟩

/-- SCB.INC (R172): the id, then saturation, then the write, which cannot fail. -/
theorem execScbInc_isAnswer (id : Int256) (s : State) : IsAnswer (.scbInc id) s (execScbInc id s) := by
  unfold execScbInc
  rcases incrementCounter_spec s.bank id.toNat with ⟨_, h⟩ | ⟨_, _, h⟩ | ⟨hid, hs, h⟩
  · rw [h]; exact isAnswer_raise s (by simp [mayRaise])
  · rw [h]; exact isAnswer_raise s (by simp [mayRaise])
  · obtain ⟨b, hb⟩ := setCounter_next hid hs
    rw [h, hb]; exact isAnswer_respondOK_writeBank s b rfl

/-- SCB.ISFULL (R173). -/
theorem execScbIsFull_isAnswer (id : Int256) (s : State) :
    IsAnswer (.scbIsFull id) s (execScbIsFull id s) := by
  unfold execScbIsFull isFull
  rw [getCounter_eq]
  by_cases h : id.toNat > 24
  · rw [if_pos h]; exact isAnswer_raise s (by simp [mayRaise])
  · rw [if_neg h]; exact isAnswer_respondOK s (by simp [okResponseLength])

/-- SCB.TOTAL (R174). -/
theorem execScbTotal_isAnswer (s : State) : IsAnswer .scbTotal s (execScbTotal s) :=
  isAnswer_respondOK s (by simp [okResponseLength])

/-- SCB.FINDMAX (R175). -/
theorem execScbFindMax_isAnswer (s : State) : IsAnswer .scbFindMax s (execScbFindMax s) :=
  isAnswer_respondOK s (by simp [okResponseLength])

/-- All that a well-formed command can do, from every state (R196): no command is refused, and SELFCHECK is no
answer. -/
theorem exec_isAnswer {i : Instr} (h : i.WellFormed) (s : State) : IsAnswer i s (exec i s) := by
  cases i with
  | hsSplit msg => exact execHsSplit_isAnswer h s
  | frvVerify w d => exact execFrvVerify_isAnswer w d s
  | ccFromLimbs high low => exact execCcFromLimbs_isAnswer high low s
  | ccToLimbs inst => exact execCcToLimbs_isAnswer inst s
  | ccFromPoint x y => exact execCcFromPoint_isAnswer x y s
  | ccToPoint bx byy => exact execCcToPoint_isAnswer bx byy s
  | scbLoad v => exact execScbLoad_isAnswer v s
  | scbStore => exact execScbStore_isAnswer s
  | scbGet id => exact execScbGet_isAnswer id s
  | scbSet id newValue => exact execScbSet_isAnswer id newValue s
  | scbInc id => exact execScbInc_isAnswer id s
  | scbIsFull id => exact execScbIsFull_isAnswer id s
  | scbTotal => exact execScbTotal_isAnswer s
  | scbFindMax => exact execScbFindMax_isAnswer s

/-! ### Steps and runs (R10, R60) -/

/-- A packet that decodes is taken and executed (R67). -/
theorem step_of_decode_ok {s : State} {p : Packet} {rest : List Input} {i : Instr}
    (hp : s.port = .packet p :: rest) (hi : decode p = .ok i) : step s = exec i (s.took rest) := by
  simp only [step, hp, hi]

/-- A packet that does not decode is taken and answered ILLEGAL (R194). -/
theorem step_of_decode_error {s : State} {p : Packet} {rest : List Input} {why : Illegal}
    (hp : s.port = .packet p :: rest) (hw : decode p = .error why) :
    step s = raise (.illegal why) (s.took rest) := by
  simp only [step, hp, hw]

/-- Every packet is taken and answered once, whether it is a command or not (R60). -/
theorem step_answers_packet {s : State} {p : Packet} {rest : List Input} (hp : s.port = .packet p :: rest) :
    ∃ (b : Bank) (r : Packet), step s = .next (((s.took rest).writeBank b).give r) := by
  cases hd : decode p with
  | ok i =>
    rw [step_of_decode_ok hp hd]
    exact (exec_isAnswer (decode_wellFormed hd) (s.took rest)).exists_next
  | error why =>
    rw [step_of_decode_error hp hd]
    exact ⟨s.bank, errorResponse (.illegal why), rfl⟩

/-- No state makes the step fault or refuse (R10). -/
theorem step_exists_next (s : State) : ∃ t, step s = .next t := by
  rcases step_cases s with ⟨_, h⟩ | ⟨p, rest, i, hp, _, _⟩ | ⟨p, rest, why, _, _, h⟩ | ⟨rest, _, h⟩
  · exact ⟨s, h⟩
  · obtain ⟨b, r, h⟩ := step_answers_packet hp
    exact ⟨_, h⟩
  · exact ⟨_, h⟩
  · exact ⟨_, h⟩

/-- A run takes its first step and goes on from there. -/
theorem run_succ_of_step {s t : State} (h : step s = .next t) (n : Nat) :
    core.run (n + 1) s = core.run n t := by
  have hs : core.step s = .next t := h
  simp only [Host.Core.run, hs]

/-- Every run from every state is safe, since no step of it stops (R10, R200). -/
theorem safeRun (n : Nat) (s : State) : SafeRun n s := by
  induction n generalizing s with
  | zero => exact ⟨s, rfl⟩
  | succ n ih =>
    obtain ⟨t, ht⟩ := step_exists_next s
    rw [SafeRun, run_succ_of_step ht]
    exact ih t

end Sys2Proof.Machine

namespace Sys2Proof.Proofs

open Sys2Proof.Machine

/-- Settles O8: the step on a packet that decodes. -/
theorem stepRunsDecoded : Obligations.StepRunsDecoded :=
  fun _ _ _ _ hp hi _ => step_of_decode_ok hp hi

/-- Settles O10: a step on a packet ends in a state because what decodes is well-formed, and a run is its steps. -/
theorem stepIsTotal : Obligations.StepIsTotal :=
  ⟨step_exists_next, safeRun⟩

/-- Settles O11: a command answers once, and so does the decoder when the packet is none. -/
theorem oneResponsePerPacket : Obligations.OneResponsePerPacket :=
  fun _ _ _ hp => step_answers_packet hp

end Sys2Proof.Proofs

/-! PROOFS. The statements of 10_state.md: BANK as one integer and as 25 slots, the scans against direct access, and
what an answer depends on. -/

/-! ### The bits of a slot and of the headroom (R22, R23) -/

namespace Sys2Proof.Machine

/-- A slot is at most its top value, 1023 (R22). -/
theorem slot_le (bank : Bank) (i : Nat) : slot bank i ≤ 1023 := Nat.le_of_lt_succ (slot_lt bank i)

/-- What a slot contributes to BANK is no more than BANK, so the subtraction of R22 is exact. -/
theorem slot_mul_le (bank : Bank) (i : Nat) : slot bank i * 2 ^ (10 * i) ≤ bank.toNat :=
  (Nat.le_div_iff_mul_le (by positivity)).mp (Nat.mod_le _ _)

/-- Bit `j` of a slot is bit `10i + j` of BANK (R22). -/
theorem slot_testBit (bank : Bank) (i j : Nat) :
    (slot bank i).testBit j = (decide (j ≤ 9) && bank.getLsbD (10 * i + j)) := by
  rw [slot, show 1024 = 2 ^ 10 by norm_num, Nat.testBit_mod_two_pow, Nat.testBit_div_two_pow, BitVec.testBit_toNat,
    Nat.add_comm j]
  simp only [Nat.lt_succ_iff]

/-- Bit `j` of the headroom is bit `250 + j` of BANK (R23). -/
theorem headroom_testBit (bank : Bank) (j : Nat) : (headroom bank).testBit j = bank.getLsbD (250 + j) := by
  rw [headroom_eq, Nat.testBit_div_two_pow, BitVec.testBit_toNat, Nat.add_comm j]

/-- Bit `k` of BANK is bit `k % 10` of slot `k / 10` (R22); slot 25 is the headroom. -/
theorem getLsbD_eq_slot_testBit (bank : Bank) (k : Nat) :
    bank.getLsbD k = (slot bank (k / 10)).testBit (k % 10) := by
  rw [slot_testBit, Nat.div_add_mod, decide_eq_true (by omega), Bool.true_and]

/-- Banks with the same headroom, and the same slot where bit `k` lies, have the same bit `k`. -/
theorem getLsbD_congr {b b' : Bank} {k : Nat} (hh : headroom b = headroom b')
    (hs : k / 10 ≤ 24 → slot b (k / 10) = slot b' (k / 10)) : b.getLsbD k = b'.getLsbD k := by
  by_cases hk : k / 10 ≤ 24
  · rw [getLsbD_eq_slot_testBit, getLsbD_eq_slot_testBit, hs hk]
  · obtain ⟨j, rfl⟩ : ∃ j, k = 250 + j := ⟨k - 250, by omega⟩
    rw [← headroom_testBit, ← headroom_testBit, hh]

/-! ### The packet form of BANK, and the zero bank (R36, R47) -/

/-- The number byte `k` of `BE(n, v)` stands for (R14). -/
theorem be_getD_toNat (v : Nat) {n k : Nat} (h : k < n) :
    ((be n v).getD k 0).toNat = v / 256 ^ (n - 1 - k) % 256 := by
  rw [List.getD_eq_getElem?_getD, be_getElem? v h, Option.getD_some, BitVec.toNat_ofNat]

/-- In the packet form of BANK, counter 0 is bits 1:0 of byte 30 and all of byte 31 (R47, R48). -/
theorem slot_zero_eq_bytes (bank : Bank) :
    slot bank 0 = ((be 32 bank.toNat).getD 30 0).toNat % 4 * 256 + ((be 32 bank.toNat).getD 31 0).toNat := by
  rw [be_getD_toNat _ (by decide), be_getD_toNat _ (by decide), slot]
  omega

/-- Every counter of the zero bank is 0. -/
theorem slot_zero_bank (i : Nat) : slot 0 i = 0 := by simp [slot]

/-- The headroom of the zero bank is 0. -/
theorem headroom_zero_bank : headroom 0 = 0 := rfl

/-! ### The direct write of R22 -/

/-- The writing scan of R163 is the direct write of R22 (R176). -/
theorem setCounter_eq_writeSlot (bank : Bank) {id v : Nat} (hid : id ≤ 24) (hv : v ≤ 1023) :
    setCounter bank id v = .ok (writeSlot bank id v) := by
  rcases setCounter_spec bank id v with ⟨h, _⟩ | ⟨_, h, _⟩ | ⟨_, _, b, h, _⟩
  · omega
  · omega
  · obtain ⟨_, _, _, _, _, hb⟩ := setCounter_slots h
    have hle := slot_mul_le bank id
    have hval : bank.toNat - slot bank id * 2 ^ (10 * id) + v * 2 ^ (10 * id) = b.toNat := by omega
    rw [h, writeSlot, hval, BitVec.ofNat_toNat, BitVec.setWidth_eq]

/-- The counter written holds the value (R22). -/
theorem slot_writeSlot_same (bank : Bank) {i v : Nat} (hi : i ≤ 24) (hv : v ≤ 1023) :
    slot (writeSlot bank i v) i = v := by
  obtain ⟨_, _, hs, _⟩ := setCounter_slots (setCounter_eq_writeSlot bank hi hv)
  exact hs

/-- The integer of R22 fits the register, so the write loses nothing of it. -/
theorem writeSlot_toNat (bank : Bank) {i v : Nat} (hi : i ≤ 24) (hv : v ≤ 1023) :
    (writeSlot bank i v).toNat = bank.toNat - slot bank i * 2 ^ (10 * i) + v * 2 ^ (10 * i) := by
  obtain ⟨_, _, _, _, _, hb⟩ := setCounter_slots (setCounter_eq_writeSlot bank hi hv)
  have hle := slot_mul_le bank i
  omega

/-- A write of `c[i]` changes no bit outside `10i+9:10i`: the other counters and the headroom stay (R22). -/
theorem writeSlot_getLsbD_of_outside (bank : Bank) {i v k : Nat} (hi : i ≤ 24) (hv : v ≤ 1023)
    (hk : ¬ (10 * i ≤ k ∧ k ≤ 10 * i + 9)) : (writeSlot bank i v).getLsbD k = bank.getLsbD k := by
  obtain ⟨_, _, _, hh, hs, _⟩ := setCounter_slots (setCounter_eq_writeSlot bank hi hv)
  exact getLsbD_congr hh fun hk' => hs _ hk' (by omega)

/-- SCB.SET with both operands in bounds writes its counter and answers OK (R171). -/
theorem exec_scbSet_of_le {id newValue : Int256} (s : State) (hid : id.toNat ≤ 24) (hv : newValue.toNat ≤ 1023) :
    exec (.scbSet id newValue) s = respondOK [] (s.writeBank (writeSlot s.bank id.toNat newValue.toNat)) := by
  rw [exec, execScbSet, setCounter_eq_writeSlot s.bank hid hv]

end Sys2Proof.Machine

namespace Sys2Proof.Proofs

open Sys2Proof.Machine

/-- Settles O21: the bank after reset is the zero bank. -/
theorem resetLeavesZeroBank : Obligations.ResetLeavesZeroBank :=
  ⟨rfl, fun i _ => slot_zero_bank i, headroom_zero_bank⟩

/-- Settles O45: the bank as a number in base 1024, and the two low bytes of its packet form. -/
theorem bankIsItsSlots : Obligations.BankIsItsSlots := by
  intro bank
  refine ⟨?_, slot_le bank, slot_zero_eq_bytes bank⟩
  rw [← packed_eq_sum (slot bank), Nat.add_comm, bank_eq_packed]

/-- Settles O46: the direct write is the writing scan, whose slots and headroom are known. -/
theorem counterWriteChangesOnlyItsBits : Obligations.CounterWriteChangesOnlyItsBits :=
  fun bank i _ hi hv => ⟨slot_le bank i, slot_testBit bank i, slot_writeSlot_same bank hi hv,
    writeSlot_toNat bank hi hv, fun _ => writeSlot_getLsbD_of_outside bank hi hv⟩

/-- Settles O47: the reading scan ends on the slot, the writing scan on the bank of the direct write. -/
theorem scansAgreeWithDirectAccess : Obligations.ScansAgreeWithDirectAccess := by
  intro bank id v hid hv
  refine ⟨?_, setCounter_eq_writeSlot bank hid hv⟩
  rw [getCounter_eq, if_neg (Nat.not_lt.mpr hid)]

/-- Settles O59: SCB.SET leaves the bank of the direct write, and SCB.STORE answers it whole. -/
theorem storeSeesWhatSetWrote : Obligations.StoreSeesWhatSetWrote := by
  intro id newValue s t hid hv hset
  rw [exec_scbSet_of_le s hid hv] at hset
  obtain rfl := respondOK_spec hset
  refine ⟨(writeSlot s.bank id.toNat newValue.toNat).toNat, rfl, slot_writeSlot_same s.bank hid hv, fun k hk => ?_⟩
  rw [BitVec.testBit_toNat, BitVec.testBit_toNat, writeSlot_getLsbD_of_outside s.bank hid hv hk]

end Sys2Proof.Proofs

/-! ### What an answer depends on (R37, R38) -/

namespace Sys2Proof.Machine

/-- In every state whose bank is `b`, whatever its ports hold, `f` answers with one and the same response and leaves
one and the same bank (R38). -/
def AnswersAt (b : Bank) (f : State → Outcome) : Prop :=
  ∃ (b' : Bank) (r : Packet), ∀ s : State, s.bank = b → f s = .next ((s.writeBank b').give r)

/-- Raising an error keeps the bank. -/
theorem answersAt_raise (b : Bank) (e : Error) : AnswersAt b (raise e) :=
  ⟨b, errorResponse e, fun s hs => by rw [← hs]; rfl⟩

/-- An OK response keeps the bank. -/
theorem answersAt_respondOK (b : Bank) (payload : Bytes) : AnswersAt b (respondOK payload) :=
  ⟨b, okResponse payload, fun s hs => by rw [← hs]; rfl⟩

/-- An OK response after a write of BANK. -/
theorem answersAt_respondOK_writeBank (b b' : Bank) (payload : Bytes) :
    AnswersAt b fun s => respondOK payload (s.writeBank b') :=
  ⟨b', okResponse payload, fun _ _ => rfl⟩

/-- What `f` does in the states whose bank is `b` is all that counts. -/
theorem AnswersAt.congr {b : Bank} {f g : State → Outcome} (hg : AnswersAt b g)
    (hfg : ∀ s : State, s.bank = b → f s = g s) : AnswersAt b f := by
  obtain ⟨b', r, h⟩ := hg
  exact ⟨b', r, fun s hs => by rw [hfg s hs, h s hs]⟩

/-- The commands of the HSW, FRV and CC units answer from their operands alone (R37). -/
theorem exec_ignores_bank {i : Instr} (h : i.WellFormed) (hu : i.unit ≠ .scb) :
    ∃ r : Packet, ∀ s : State, exec i s = .next (s.give r) := by
  cases i with
  | hsSplit msg => exact ⟨_, fun _ => if_pos (length_lt_of_wellFormed h)⟩
  | frvVerify w d =>
    by_cases hd : (replay w).bytes = d.bytes
    · exact ⟨_, fun _ => if_pos hd⟩
    · exact ⟨_, fun _ => if_neg hd⟩
  | ccFromLimbs high low =>
    cases hl : fromLimbs high.toNat low.toNat with
    | error e => exact ⟨errorResponse e, fun _ => by rw [exec, execCcFromLimbs, hl]; rfl⟩
    | ok inst => exact ⟨okResponse inst.bytes, fun _ => by rw [exec, execCcFromLimbs, hl]; rfl⟩
  | ccToLimbs _ => exact ⟨_, fun _ => rfl⟩
  | ccFromPoint _ _ => exact ⟨_, fun _ => rfl⟩
  | ccToPoint _ _ => exact ⟨_, fun _ => rfl⟩
  | _ => exact absurd rfl hu

/-- SCB.LOAD (R168). -/
theorem execScbLoad_answersAt (b : Bank) (v : Int256) : AnswersAt b (execScbLoad v) := by
  by_cases h : v.toNat ≥ 2 ^ Config.scalarBits
  · exact (answersAt_raise b .bankWidth).congr fun _ _ => if_pos h
  · exact (answersAt_respondOK_writeBank b _ []).congr fun _ _ => if_neg h

/-- SCB.GET (R170). -/
theorem execScbGet_answersAt (b : Bank) (id : Int256) : AnswersAt b (execScbGet id) := by
  cases h : getCounter b id.toNat with
  | error e => exact (answersAt_raise b e).congr fun s hs => by rw [execScbGet, hs, h]
  | ok value => exact (answersAt_respondOK b (intField value)).congr fun s hs => by rw [execScbGet, hs, h]

/-- SCB.SET (R171). -/
theorem execScbSet_answersAt (b : Bank) (id newValue : Int256) : AnswersAt b (execScbSet id newValue) := by
  cases h : setCounter b id.toNat newValue.toNat with
  | error e => exact (answersAt_raise b e).congr fun s hs => by rw [execScbSet, hs, h]
  | ok b' => exact (answersAt_respondOK_writeBank b b' []).congr fun s hs => by rw [execScbSet, hs, h]

/-- SCB.INC (R172). -/
theorem execScbInc_answersAt (b : Bank) (id : Int256) : AnswersAt b (execScbInc id) := by
  cases h : incrementCounter b id.toNat with
  | error e => exact (answersAt_raise b e).congr fun s hs => by rw [execScbInc, hs, h]
  | ok b' => exact (answersAt_respondOK_writeBank b b' []).congr fun s hs => by rw [execScbInc, hs, h]

/-- SCB.ISFULL (R173). -/
theorem execScbIsFull_answersAt (b : Bank) (id : Int256) : AnswersAt b (execScbIsFull id) := by
  cases h : isFull b id.toNat with
  | error e => exact (answersAt_raise b e).congr fun s hs => by rw [execScbIsFull, hs, h]
  | ok full => exact (answersAt_respondOK b (boolField full)).congr fun s hs => by rw [execScbIsFull, hs, h]

/-- A well-formed command reads nothing of the state but BANK (R38). -/
theorem exec_answersAt {i : Instr} (h : i.WellFormed) (b : Bank) : AnswersAt b (exec i) := by
  by_cases hu : i.unit = .scb
  · cases i with
    | scbLoad v => exact execScbLoad_answersAt b v
    | scbStore => exact (answersAt_respondOK b (intField b.toNat)).congr fun _ hs => by rw [← hs]; rfl
    | scbGet id => exact execScbGet_answersAt b id
    | scbSet id newValue => exact execScbSet_answersAt b id newValue
    | scbInc id => exact execScbInc_answersAt b id
    | scbIsFull id => exact execScbIsFull_answersAt b id
    | scbTotal => exact (answersAt_respondOK b (intField (totalCount b))).congr fun _ hs => by rw [← hs]; rfl
    | scbFindMax =>
      exact (answersAt_respondOK b (intField (findMax b).1 ++ intField (findMax b).2)).congr fun _ hs => by
        rw [← hs]; rfl
    | _ => cases hu
  · obtain ⟨r, hr⟩ := exec_ignores_bank h hu
    exact ⟨b, r, fun s hs => by rw [hr, ← hs, writeBank_self]⟩

end Sys2Proof.Machine

namespace Sys2Proof.Proofs

open Sys2Proof.Machine

/-- Settles O13: the packet decodes to one command, which reads BANK and no port, or to none and is answered
ILLEGAL. -/
theorem equalBankEqualAnswer : Obligations.EqualBankEqualAnswer := by
  intro p b
  cases hd : decode p with
  | ok i =>
    obtain ⟨b', r, h⟩ := exec_answersAt (decode_wellFormed hd) b
    exact ⟨b', r, fun s rest hb hp => (step_of_decode_ok hp hd).trans (h (s.took rest) hb)⟩
  | error why =>
    obtain ⟨b', r, h⟩ := answersAt_raise b (.illegal why)
    exact ⟨b', r, fun s rest hb hp => (step_of_decode_error hp hd).trans (h (s.took rest) hb)⟩

end Sys2Proof.Proofs

/-! PROOFS. The statements of 20_memory.md: the ports over a whole run, and the layout of a point in a packet and in a
response. -/

/-! ### CC.FROMPOINT (R138, R142) -/

namespace Sys2Proof.Machine

/-- A payload of two fields, after the two zero bytes of an OK response (R70). -/
theorem okResponse_append (f g : Bytes) : okResponse (f ++ g) = [0x00#8, 0x00#8] ++ f ++ g := by
  rw [okResponse_eq, List.append_assoc, List.cons_append, List.cons_append, List.nil_append]

/-- CC.FROMPOINT answers its two coordinates, each as its 32 bytes (R142). -/
theorem exec_ccFromPoint (x y : Int256) (s : State) :
    exec (.ccFromPoint x y) s = respondOK (be 32 x.toNat ++ be 32 y.toNat) s := rfl

end Sys2Proof.Machine

namespace Sys2Proof.Proofs

open Sys2Proof.Machine

/-- Settles O41: the encoder and the response lay the two coordinates out in the same 64 bytes. -/
theorem ccFromPointAnswers : Obligations.CcFromPointAnswers := by
  intro x y s
  refine ⟨rfl, ?_⟩
  rw [exec_ccFromPoint, respondOK, okResponse_append]

/-- Settles O12, by induction on the packets: the step on the first one appends its response, and the run on the others
goes on from there. -/
theorem runAnswersEveryPacket : Obligations.RunAnswersEveryPacket := by
  intro ps
  induction ps with
  | nil =>
    rintro ⟨b, port, sent⟩ (rfl : port = [])
    refine ⟨b, [], rfl, ?_⟩
    rw [List.append_nil]
    rfl
  | cons p ps ih =>
    intro s hp
    obtain ⟨b, r, hstep⟩ := step_answers_packet hp
    obtain ⟨b', rs, hlen, hrun⟩ := ih (((s.took (ps.map .packet)).writeBank b).give r) rfl
    refine ⟨b', r :: rs, congrArg (· + 1) hlen, ?_⟩
    rw [List.length_cons, run_succ_of_step hstep, hrun, give_sent, writeBank_sent, took_sent, List.append_assoc,
      List.singleton_append]

end Sys2Proof.Proofs

/-! PROOFS. The statements of 30_encoding.md: the two round trips of the command packets, the verdicts of the decoder,
the responses, and the sequences a host runs. -/

/-! ### What the decoder reads from an encoded command (R61 to R65) -/

namespace Sys2Proof.Machine

/-- The first of two fields, cut at its length. -/
theorem slice_append_fst {f : Bytes} {n : Nat} (hf : f.length = n) (g : Bytes) : slice (f ++ g) 0 n = f := by
  rw [slice_append_left f g 0 n hf.ge, slice_all f n hf.le]

/-- The second of two fields, from the length of the first to the length of both. -/
theorem slice_append_snd {f g : Bytes} {n m : Nat} (hf : f.length = n) (hm : (f ++ g).length = m) :
    slice (f ++ g) n m = g := by
  rw [List.length_append] at hm
  rw [slice_append_right f g n m hf.le, hf, Nat.sub_self, slice_all g (m - n) (by omega)]

end Sys2Proof.Machine

namespace Sys2Proof

open Sys2Proof.Machine

/-- Format I reads its field back (R63). -/
theorem decodeI_intField (mk : Int256 → Instr) (v : Int256) : decodeI mk (intField v.toNat) = .ok (mk v) := by
  rw [decodeI, if_pos (intField_length _), intOf_intField]

/-- Format II reads its two fields back (R63). -/
theorem decodeII_intFields (mk : Int256 → Int256 → Instr) (v w : Int256) :
    decodeII mk (intField v.toNat ++ intField w.toNat) = .ok (mk v w) := by
  have hl : (intField v.toNat ++ intField w.toNat).length = 64 := by simp
  rw [decodeII, if_pos hl, slice_append_fst (intField_length _), slice_append_snd (intField_length _) hl,
    intOf_intField, intOf_intField]

/-- Format B reads its 32 bytes back (R65). -/
theorem decodeB_bytes (mk : Bytes32 → Instr) (x : Bytes32) : decodeB mk x.bytes = .ok (mk x) :=
  dif_pos x.size

/-- Format BB reads its twice 32 bytes back (R65). -/
theorem decodeBB_bytes (mk : Bytes32 → Bytes32 → Instr) (x y : Bytes32) :
    decodeBB mk (x.bytes ++ y.bytes) = .ok (mk x y) := by
  have hl : (x.bytes ++ y.bytes).length = 64 := by simp [x.size, y.size]
  rw [decodeBB, dif_pos hl]
  congr 2
  · exact Bytes32.eq_of_bytes (slice_append_fst x.size _)
  · exact Bytes32.eq_of_bytes (slice_append_snd x.size hl)

/-- Format WD reads its witness and its digest back (R64). -/
theorem decodeWD_bytes (mk : RoundWitness → Bytes32 → Instr) (w : RoundWitness) (d : Bytes32) :
    decodeWD mk (witnessBytes w ++ d.bytes) = .ok (mk w d) := by
  have hl : (witnessBytes w ++ d.bytes).length = 104 := by simp [d.size]
  rw [decodeWD, dif_pos hl]
  congr 2
  · rw [slice_append_fst (witnessBytes_length w), witnessOf_witnessBytes]
  · exact Bytes32.eq_of_bytes (slice_append_snd (witnessBytes_length w) hl)

/-- A well-formed command is read back from its packet (R61, R67). -/
theorem decode_encode {i : Instr} (h : i.WellFormed) : decode (encode i) = .ok i := by
  cases i with
  | hsSplit msg => exact if_neg (Nat.not_lt.mpr (of_decide_eq_true h))
  | frvVerify w d => exact decodeWD_bytes _ w d
  | ccFromLimbs high low => exact decodeII_intFields _ high low
  | ccToLimbs x => exact decodeB_bytes _ x
  | ccFromPoint x y => exact decodeII_intFields _ x y
  | ccToPoint bx byy => exact decodeBB_bytes _ bx byy
  | scbLoad v => exact decodeI_intField _ v
  | scbGet id => exact decodeI_intField _ id
  | scbSet id newValue => exact decodeII_intFields _ id newValue
  | scbInc id => exact decodeI_intField _ id
  | scbIsFull id => exact decodeI_intField _ id
  | scbStore | scbTotal | scbFindMax => rfl

/-- What an opcode and its operands are read as has that opcode and those operands (R61, R69). -/
theorem decodeCommand_ok {op : Byte} {ops : Bytes} {i : Instr} (h : decodeCommand op ops = .ok i) :
    i.opcode = op ∧ i.operands = ops := by
  unfold decodeCommand at h
  split at h
  · obtain ⟨_, rfl⟩ := decodeM_ok h; exact ⟨rfl, rfl⟩
  · obtain ⟨_, _, rfl, rfl⟩ := decodeWD_ok h; exact ⟨rfl, rfl⟩
  · obtain ⟨_, _, rfl, rfl⟩ := decodeII_ok h; exact ⟨rfl, rfl⟩
  · obtain ⟨_, rfl, rfl⟩ := decodeB_ok h; exact ⟨rfl, rfl⟩
  · obtain ⟨_, _, rfl, rfl⟩ := decodeII_ok h; exact ⟨rfl, rfl⟩
  · obtain ⟨_, _, rfl, rfl⟩ := decodeBB_ok h; exact ⟨rfl, rfl⟩
  · obtain ⟨_, rfl, rfl⟩ := decodeI_ok h; exact ⟨rfl, rfl⟩
  · obtain ⟨rfl, rfl⟩ := decodeN_ok h; exact ⟨rfl, rfl⟩
  · obtain ⟨_, rfl, rfl⟩ := decodeI_ok h; exact ⟨rfl, rfl⟩
  · obtain ⟨_, _, rfl, rfl⟩ := decodeII_ok h; exact ⟨rfl, rfl⟩
  · obtain ⟨_, rfl, rfl⟩ := decodeI_ok h; exact ⟨rfl, rfl⟩
  · obtain ⟨_, rfl, rfl⟩ := decodeI_ok h; exact ⟨rfl, rfl⟩
  · obtain ⟨rfl, rfl⟩ := decodeN_ok h; exact ⟨rfl, rfl⟩
  · obtain ⟨rfl, rfl⟩ := decodeN_ok h; exact ⟨rfl, rfl⟩
  · cases h

/-- What decodes is the packet of its command (R69). -/
theorem encode_decode {p : Packet} {i : Instr} (h : decode p = .ok i) : encode i = p := by
  cases p with
  | nil => cases h
  | cons op ops =>
    obtain ⟨hop, hops⟩ := decodeCommand_ok h
    rw [encode, hop, hops]

end Sys2Proof

namespace Sys2Proof.Proofs

open Sys2Proof.Machine

/-- Settles O1, by cases on the command: each format reads back the fields it writes. -/
theorem decodeOfEncode : Obligations.DecodeOfEncode :=
  fun _ => decode_encode

/-- Settles O2: the opcode map lets well-formed commands through, and each format writes back the bytes it read. -/
theorem encodeOfDecode : Obligations.EncodeOfDecode :=
  fun _ _ h => ⟨decode_wellFormed h, encode_decode h⟩

/-- Settles O4: each packet is its command's own, so it is read back as that command. -/
theorem writtenOutPackets : Obligations.WrittenOutPackets := by
  have hempty : (Instr.hsSplit []).WellFormed := decide_eq_true (Nat.zero_le Config.maxMsgBytes)
  refine ⟨decode_encode hempty, ?_, ?_, ?_⟩
  · exact decode_encode (i := .scbInc 24) rfl
  · exact decode_encode (i := .ccFromLimbs 1 2) rfl
  · exact decode_encode (i := .frvVerify ⟨⟨0, 0, 0, 0, 0, 0, 0, 0⟩, ⟨0, 0, 0, 0, 0, 0, 0, 0⟩, 5, 0⟩
      ⟨List.replicate 32 0, rfl⟩) rfl

end Sys2Proof.Proofs

/-! ### Which packets are commands (R62, R66, R67) -/

namespace Sys2Proof

open Sys2Proof.Machine

/-- The opcodes of each fixed-length format, with the operand length of the format (R62, R66). -/
theorem fixedOperandBytes_eq_some_iff (op : Byte) (n : Nat) : fixedOperandBytes op = some n ↔
    (op ∈ [0x41#8, 0x46#8, 0x47#8] ∧ n = 0) ∨
    (op ∈ [0x31#8, 0x40#8, 0x42#8, 0x44#8, 0x45#8] ∧ n = 32) ∨
    (op ∈ [0x30#8, 0x32#8, 0x33#8, 0x43#8] ∧ n = 64) ∨ (op = 0x20#8 ∧ n = 104) := by
  unfold fixedOperandBytes
  split <;> simp_all [eq_comm]

/-- The high four bits of a command's opcode number its unit (R66). -/
theorem opcode_unit (i : Instr) : i.opcode.toNat / 16 = i.unit.number := by
  cases i <;> simp [Instr.opcode, Instr.unit, HwUnit.number]

/-- The reading of an operand string as a format of `n` bytes: refused as LENGTH at every length but `n`, and a command
at length `n` (R62, R67). -/
def ReadsAtLength (n : Nat) (ops : Bytes) (d : Except Illegal Instr) : Prop :=
  (ops.length = n → ∃ i, d = .ok i) ∧ (ops.length ≠ n → d = .error .length)

/-- The formats whose fields are cut without a proof of the length. -/
theorem readsAtLength_ite (n : Nat) (ops : Bytes) (i : Instr) :
    ReadsAtLength n ops (if ops.length = n then .ok i else .error .length) :=
  ⟨fun h => ⟨i, if_pos h⟩, fun h => if_neg h⟩

/-- The formats with a field that carries its length. -/
theorem readsAtLength_dite (n : Nat) (ops : Bytes) (mk : ops.length = n → Instr) :
    ReadsAtLength n ops (if h : ops.length = n then .ok (mk h) else .error .length) :=
  ⟨fun h => ⟨mk h, dif_pos h⟩, fun h => dif_neg h⟩

/-- An opcode of a fixed length is read at that length and at no other (R67). -/
theorem decodeCommand_of_fixed {op : Byte} {n : Nat} (h : fixedOperandBytes op = some n) (ops : Bytes) :
    ReadsAtLength n ops (decodeCommand op ops) := by
  unfold fixedOperandBytes at h
  split at h
  case h_14 => cases h
  all_goals cases h
  · exact readsAtLength_dite 104 ops _
  · exact readsAtLength_ite 64 ops _
  · exact readsAtLength_dite 32 ops _
  · exact readsAtLength_ite 64 ops _
  · exact readsAtLength_dite 64 ops _
  · exact readsAtLength_ite 32 ops _
  · exact readsAtLength_ite 0 ops _
  · exact readsAtLength_ite 32 ops _
  · exact readsAtLength_ite 64 ops _
  · exact readsAtLength_ite 32 ops _
  · exact readsAtLength_ite 32 ops _
  · exact readsAtLength_ite 0 ops _
  · exact readsAtLength_ite 0 ops _

/-- The fourteen opcodes: the one whose length is its message's, and those of a fixed length (R66). -/
theorem mem_opcodes_iff (op : Byte) :
    op ∈ [0x10#8, 0x20#8, 0x30#8, 0x31#8, 0x32#8, 0x33#8, 0x40#8, 0x41#8, 0x42#8, 0x43#8, 0x44#8, 0x45#8,
      0x46#8, 0x47#8] ↔ op = 0x10#8 ∨ ∃ n, fixedOperandBytes op = some n := by
  simp only [fixedOperandBytes_eq_some_iff, exists_or, exists_and_left, exists_eq, List.mem_cons, List.not_mem_nil]
  tauto

/-- An opcode byte that no command has is OPCODE, whatever follows it (R69). -/
theorem decodeCommand_unassigned {op : Byte} (hne : op ≠ 0x10#8) (h : fixedOperandBytes op = none) (ops : Bytes) :
    decodeCommand op ops = .error .opcode := by
  unfold fixedOperandBytes at h
  unfold decodeCommand
  split <;> simp_all

/-- The message of HS.SPLIT is read up to MAX_MSG_BYTES and refused as LENGTH above (R67, R75). -/
theorem decode_hsSplit (msg : Bytes) : decode (0x10#8 :: msg) =
    if Config.maxMsgBytes < msg.length then .error .length else .ok (.hsSplit msg) := rfl

end Sys2Proof

namespace Sys2Proof.Proofs

open Sys2Proof.Machine

/-- Settles O3: the opcode is none of the fourteen, or that of HS.SPLIT with its limit, or one with a fixed length. -/
theorem decoderVerdicts : Obligations.DecoderVerdicts := by
  refine ⟨rfl, fun op ops => ?_⟩
  split
  · next hop =>
    rw [mem_opcodes_iff, not_or, not_exists] at hop
    exact decodeCommand_unassigned hop.1 (Option.eq_none_iff_forall_ne_some.mpr hop.2) ops
  · next hop =>
    split
    · next hfit =>
      have hread : ∃ i, decode (op :: ops) = .ok i := by
        rcases hfit with ⟨rfl, hl⟩ | hfit
        · exact ⟨_, if_neg (Nat.not_lt.mpr hl)⟩
        · exact (decodeCommand_of_fixed ((fixedOperandBytes_eq_some_iff op ops.length).mpr hfit) ops).1 rfl
      obtain ⟨i, hi⟩ := hread
      obtain ⟨rfl, _⟩ := decodeCommand_ok hi
      exact ⟨i, rfl, opcode_unit i, hi⟩
    · next hfit =>
      rcases (mem_opcodes_iff op).mp (not_not.mp hop) with rfl | ⟨n, hn⟩
      · exact if_pos (Nat.lt_of_not_le fun hl => hfit (.inl ⟨rfl, hl⟩))
      · exact (decodeCommand_of_fixed hn ops).2
          fun hl => hfit (.inr ((fixedOperandBytes_eq_some_iff op ops.length).mp (hl ▸ hn)))

end Sys2Proof.Proofs

/-! ### Table words, packets that are no command, and HS.SPLIT (R64, R66, R104, R194) -/

namespace Sys2Proof.Machine

/-- A table word that stands for a command is a packet that decodes to it. -/
theorem decode_tablePacket {nbits w : Nat} {i : Instr} (h : decodeTableWord nbits w = some i) :
    decode (tablePacket nbits w) = .ok i := by
  unfold decodeTableWord at h
  cases hd : decode (tablePacket nbits w) with
  | ok j => rw [hd] at h; exact congrArg Except.ok (Option.some.inj h)
  | error why => rw [hd] at h; cases h

/-- The two bytes of ILLEGAL (R190, R191). -/
theorem errorResponse_illegal (why : Illegal) :
    errorResponse (.illegal why) = [0x04#8, if why = .opcode then 0x01#8 else 0x02#8] := by
  cases why <;> rfl

/-- HS.SPLIT of a message below the trailer's limit answers its witness and its digest (R104). -/
theorem exec_hsSplit {msg : Bytes} (h : msg.length < Config.trailerLimit) (s : State) :
    exec (.hsSplit msg) s = respondOK (witnessBytes (splitWitness msg) ++ (splitDigest msg).bytes) s :=
  if_pos h

end Sys2Proof.Machine

namespace Sys2Proof.Proofs

open Sys2Proof.Machine

/-- Settles O7: the placed packet decodes to the command and is taken off the port again. -/
theorem placedWordRuns : Obligations.PlacedWordRuns :=
  fun s nbits w _ h => step_of_decode_ok (withFetchWord_port s nbits w) (decode_tablePacket h)

/-- Settles O9: the step raises ILLEGAL with the decoder's reason. -/
theorem stepAnswersIllegal : Obligations.StepAnswersIllegal := by
  intro s p rest why hp hw
  rw [step_of_decode_error hp hw, raise, errorResponse_illegal]
  rfl

/-- Settles O24: the packet and its verdict by the opcode map, the answer with the witness written word by word. -/
theorem hsSplitAnswers : Obligations.HsSplitAnswers := by
  intro msg s
  refine ⟨rfl, decode_hsSplit msg, fun hl => ⟨?_, witnessBytes_length _, witnessBytes_eq _⟩⟩
  have hlt : msg.length < Config.trailerLimit := Nat.lt_of_le_of_lt hl (by decide)
  rw [exec_hsSplit hlt, respondOK, okResponse_append, witnessBytes_eq]
  rfl

end Sys2Proof.Proofs

/-! ### The responses (R70, R71, R190, R191, R196) -/

namespace Sys2Proof.Machine

/-- An OK response with a payload of a length of R71 is a response of the block. -/
theorem isResponse_okResponse {payload : Bytes} (h : payload.length ∈ payloadLengths) :
    isResponse (okResponse payload) = true := by
  simp [isResponse, okResponse_eq, h]

/-- The two bytes of an error the block produces are a response of it (R191). -/
theorem isResponse_errorResponse {e : Error} (h : e ∈ producedErrors) : isResponse (errorResponse e) = true := by
  rw [isResponse, Bool.or_eq_true, List.any_eq_true]
  exact .inr ⟨e, h, beq_self_eq_true _⟩

/-- The length of every OK response is two bytes and a length of R71. -/
theorem okResponseLength_eq (i : Instr) : ∃ n ∈ payloadLengths, okResponseLength i = n + 2 := by
  cases i <;> simp [payloadLengths, okResponseLength]

/-- The errors of R196 are among those the block produces: SELFCHECK is none of them. -/
theorem mayRaise_produced {i : Instr} {e : Error} (h : e ∈ mayRaise i) : e ∈ producedErrors := by
  have hsub : mayRaise i ⊆ producedErrors := by
    cases i <;> simp [mayRaise, producedErrors]
  exact hsub h

/-- ILLEGAL is produced with either of its details. -/
theorem illegal_produced (why : Illegal) : .illegal why ∈ producedErrors := by
  cases why <;> decide

/-- One more response of the block keeps the invariant. -/
theorem State.Inv.give {s : State} (h : s.Inv) {r : Packet} (hr : isResponse r = true) : (s.give r).Inv := by
  intro q hq
  rw [give_sent, List.mem_append, List.mem_singleton] at hq
  rcases hq with hq | rfl
  · exact h q hq
  · exact hr

/-- What a command answers is a response of the block (R70, R191). -/
theorem IsAnswer.inv {i : Instr} {s t : State} (h : IsAnswer i s (.next t)) (hs : s.Inv) : t.Inv := by
  rcases h with ⟨e, he, h⟩ | ⟨b, payload, hl, h⟩
  · rw [raise_spec h.symm]
    exact hs.give (isResponse_errorResponse (mayRaise_produced he))
  · obtain ⟨n, hn, hi⟩ := okResponseLength_eq i
    have hp : payload.length = n := by rw [okResponse_length] at hl; omega
    rw [respondOK_spec h.symm]
    exact State.Inv.give (s := s.writeBank b) hs (isResponse_okResponse (hp ▸ hn))

end Sys2Proof.Machine

namespace Sys2Proof.Proofs

open Sys2Proof.Machine

/-- Settles O18: an answer of the command is an error of its row, with nothing written, or an OK response of its
length. -/
theorem errorsOfEachCommand : Obligations.ErrorsOfEachCommand := by
  intro i s hi
  rcases exec_isAnswer hi s with ⟨e, he, h⟩ | ⟨b, payload, hl, h⟩
  · exact ⟨s.bank, errorResponse e, h, .inr ⟨e, he, rfl, rfl⟩⟩
  · exact ⟨b, okResponse payload, h, .inl ⟨rfl, hl⟩⟩

/-- Settles O19, by what a step can do: wait, answer a command, answer ILLEGAL, or reset. -/
theorem responsesStayLegal : Obligations.ResponsesStayLegal := by
  intro s t hs ht
  rcases step_cases s with ⟨_, h⟩ | ⟨p, rest, i, _, hd, h⟩ | ⟨p, rest, why, _, _, h⟩ | ⟨rest, _, h⟩
  · rw [h] at ht; cases ht
    exact hs
  · have ha := exec_isAnswer (decode_wellFormed hd) (s.took rest)
    rw [← h, ht] at ha
    exact ha.inv hs
  · rw [h] at ht; cases ht
    exact State.Inv.give (s := s.took rest) hs (isResponse_errorResponse (illegal_produced why))
  · rw [h] at ht; cases ht
    exact hs

end Sys2Proof.Proofs

/-! ### The host's sequences (R77, R79) -/

namespace Sys2Proof.Machine

/-- The host once the block has answered OK and kept BANK: the results bound to its variables, one response more
(R77; `runSequence_cons_of_ok`). -/
def HostRun.answered (h : HostRun) (bound : HostVars) (payload : Bytes) : HostRun :=
  { vars := bound.reverse ++ h.vars, block := h.block.give (okResponse payload), last := okResponse payload }

/-- The packet of a command reaches that command's meaning, and the host takes the response it gives (R60, R61). -/
theorem sendPacket_encode {i : Instr} {s : State} {payload : Bytes} (hi : i.WellFormed)
    (he : exec i s = respondOK payload s) :
    sendPacket (encode i) s = some (okResponse payload, s.give (okResponse payload)) := by
  have hstep : step (s.offer (encode i)) = .next (s.give (okResponse payload)) := by
    rw [step_of_decode_ok (offer_port s _) (decode_encode hi), offer_took, he, respondOK]
  simp [sendPacket, hstep]

/-- A line whose command answers OK: the host binds its results and goes on to the next line (R77, R79). -/
theorem runSequence_cons_of_ok {l : Line} {rest : List Line} {h : HostRun} {values results : List Value} {i : Instr}
    {payload : Bytes} (hv : l.operands.mapM (operandValue h.vars) = some values)
    (ha : assemble l.mnemonic values = some i) (hi : i.WellFormed)
    (he : ∀ s : State, exec i s = respondOK payload s) (hr : resultValues i (okResponse payload) = results) :
    runSequence (l :: rest) h = runSequence rest (h.answered (l.dests.zip results) payload) := by
  have hline : runLine l h = some (h.answered (l.dests.zip results) payload) := by
    rw [runLine_eq hv ha (sendPacket_encode hi (he h.block)), ← hr]
    rfl
  have hok : (h.answered (l.dests.zip results) payload).last.head? = some (statusCode .ok) := rfl
  simp only [runSequence, hline, hok, if_true]

/-- The values of two variables, as the operands of a line (R77). -/
theorem operandValues_pair {vars : HostVars} {n m : String} {v w : Value} (hn : vars.lookup n = some v)
    (hm : vars.lookup m = some w) : [Operand.var n, .var m].mapM (operandValue vars) = some [v, w] := by
  simp [operandValue, hn, hm]

/-- The value of one variable, as the operand of a line (R77). -/
theorem operandValues_single {vars : HostVars} {n : String} {v : Value} (hn : vars.lookup n = some v) :
    [Operand.var n].mapM (operandValue vars) = some [v] := by
  simp [operandValue, hn]

/-! ### The results of a response (R71) -/

/-- The first of two fields of an OK response. -/
theorem slice_okResponse_fst {f : Bytes} {n : Nat} (hf : f.length = n) (g : Bytes) :
    slice (okResponse (f ++ g)) 2 (n + 2) = f :=
  slice_append_fst hf g

/-- The second of two fields of an OK response. -/
theorem slice_okResponse_snd {f g : Bytes} {n m : Nat} (hf : f.length = n) (hg : g.length = m) :
    slice (okResponse (f ++ g)) (n + 2) (n + m + 2) = g :=
  slice_append_snd hf (by rw [List.length_append, hf, hg])

/-- HS.SPLIT gives a witness and a digest (R71). -/
theorem resultValues_hsSplit (msg : Bytes) (w : RoundWitness) (d : Bytes32) :
    resultValues (.hsSplit msg) (okResponse (witnessBytes w ++ d.bytes)) =
      [.bytes (witnessBytes w), .bytes d.bytes] := by
  simp only [resultValues]
  rw [slice_okResponse_fst (witnessBytes_length w), slice_okResponse_snd (witnessBytes_length w) d.size]

/-- CC.FROMPOINT gives the two coordinates as bytes (R71). -/
theorem resultValues_ccFromPoint (x y : Int256) (bx byy : Bytes32) :
    resultValues (.ccFromPoint x y) (okResponse (bx.bytes ++ byy.bytes)) = [.bytes bx.bytes, .bytes byy.bytes] := by
  simp only [resultValues]
  rw [slice_okResponse_fst bx.size, slice_okResponse_snd bx.size byy.size]

/-- CC.FROMLIMBS gives 32 bytes (R71). -/
theorem resultValues_ccFromLimbs (high low : Int256) (d : Bytes32) :
    resultValues (.ccFromLimbs high low) (okResponse d.bytes) = [.bytes d.bytes] := by
  have h : slice (okResponse d.bytes) 2 34 = d.bytes := slice_all d.bytes 32 d.size.le
  simp only [resultValues, h]

/-- CC.TOLIMBS gives two integers (R71). -/
theorem resultValues_ccToLimbs (d : Bytes32) (v w : Int256) :
    resultValues (.ccToLimbs d) (okResponse (intField v.toNat ++ intField w.toNat)) = [.int v, .int w] := by
  simp only [resultValues]
  rw [slice_okResponse_fst (intField_length _), slice_okResponse_snd (intField_length _) (intField_length _),
    intOf_intField, intOf_intField]

/-- CC.TOPOINT gives two integers (R71). -/
theorem resultValues_ccToPoint (bx byy : Bytes32) (v w : Int256) :
    resultValues (.ccToPoint bx byy) (okResponse (intField v.toNat ++ intField w.toNat)) = [.int v, .int w] :=
  resultValues_ccToLimbs bx v w

/-! ### HS.CHECK: the witness of a message is accepted (R104, R107, R125) -/

/-- The omitted round and the chaining step bring the witness of a message to its digest (R107). -/
theorem replay_splitWitness (msg : Bytes) : replay (splitWitness msg) = splitDigest msg := by
  obtain ⟨j, hj⟩ := exists_last_block msg.length
  rw [replay, splitDigest, candidate, splitWitness_eq msg hj, hj, chaining_succ]

/-- FRV.VERIFY accepts what HS.SPLIT gives (R107, R125). -/
theorem exec_frvVerify_splitWitness (msg : Bytes) (s : State) :
    exec (.frvVerify (splitWitness msg) (splitDigest msg)) s = respondOK [] s :=
  if_pos (congrArg Bytes32.bytes (replay_splitWitness msg))

/-- The command of an FRV.VERIFY line with a serialised witness and a digest (R77). -/
theorem assemble_frvVerify_bytes (w : RoundWitness) (d : Bytes32) :
    assemble .frvVerify [.bytes (witnessBytes w), .bytes d.bytes] = some (.frvVerify w d) := by
  rw [assemble_frvVerify, if_pos (witnessBytes_length w), asBytes32_bytes, Option.map_some, witnessOf_witnessBytes]

/-! ### CC.PACKPT and CC.UNPACKPT: the four limbs of a point (R136 to R145) -/

/-- The high limb of 32 bytes as an operand (R137). -/
def highLimb (d : Bytes32) : Int256 := BitVec.ofNat 256 (toLimbs d).1

/-- The low limb of 32 bytes as an operand (R137). -/
def lowLimb (d : Bytes32) : Int256 := BitVec.ofNat 256 (toLimbs d).2

theorem highLimb_toNat (d : Bytes32) : (highLimb d).toNat = (toLimbs d).1 := by
  have h := (toLimbs_lt d).1
  rw [highLimb, BitVec.toNat_ofNat, Nat.mod_eq_of_lt (by omega)]

theorem lowLimb_toNat (d : Bytes32) : (lowLimb d).toNat = (toLimbs d).2 := by
  have h := (toLimbs_lt d).2
  rw [lowLimb, BitVec.toNat_ofNat, Nat.mod_eq_of_lt (by omega)]

/-- 32 bytes are their high limb above their low limb (R137). -/
theorem fold_eq_limbs (d : Bytes32) :
    fold d.bytes = (highLimb d).toNat * 2 ^ 128 + (lowLimb d).toNat := by
  have hl : (slice d.bytes 16 32).length = 16 := slice_length d.bytes 16 32 d.size.ge
  have hd : slice d.bytes 0 16 ++ slice d.bytes 16 32 = d.bytes := by
    rw [slice_slice_append d.bytes (by decide) (by decide), slice_all d.bytes 32 d.size.le]
  calc fold d.bytes = fold (slice d.bytes 0 16 ++ slice d.bytes 16 32) := by rw [hd]
    _ = fold (slice d.bytes 0 16) * 2 ^ 128 + fold (slice d.bytes 16 32) := by rw [fold_append, hl, pow256]
    _ = (highLimb d).toNat * 2 ^ 128 + (lowLimb d).toNat := by rw [highLimb_toNat, lowLimb_toNat, toLimbs]

/-- A coordinate is the high limb of its 32 bytes above the low limb (R145). -/
theorem toNat_eq_limbs (x : Int256) :
    x.toNat = (highLimb (be32 x.toNat)).toNat * 2 ^ 128 + (lowLimb (be32 x.toNat)).toNat := by
  rw [← fold_eq_limbs, fold_be32 x.isLt]

/-- CC.TOLIMBS answers the two limbs (R141). -/
theorem exec_ccToLimbs (d : Bytes32) (s : State) :
    exec (.ccToLimbs d) s = respondOK (intField (highLimb d).toNat ++ intField (lowLimb d).toNat) s := by
  rw [highLimb_toNat, lowLimb_toNat]
  rfl

/-- CC.FROMLIMBS of the limbs of 32 bytes answers the 32 bytes (R140, R144). -/
theorem exec_ccFromLimbs_limbs (d : Bytes32) (s : State) :
    exec (.ccFromLimbs (highLimb d) (lowLimb d)) s = respondOK d.bytes s := by
  rw [exec, execCcFromLimbs, highLimb_toNat, lowLimb_toNat, fromLimbs_toLimbs]

/-- CC.TOPOINT of the bytes of a point answers the point (R143, R144). -/
theorem exec_ccToPoint_be32 (x y : Int256) (s : State) :
    exec (.ccToPoint (be32 x.toNat) (be32 y.toNat)) s = respondOK (intField x.toNat ++ intField y.toNat) s := by
  have h : toPoint (be32 x.toNat) (be32 y.toNat) = (x.toNat, y.toNat) := toPoint_fromPoint x.isLt y.isLt
  rw [exec, execCcToPoint, h]

/-- The command of a CC.TOLIMBS line with 32 bytes (R77). -/
theorem assemble_ccToLimbs_bytes (d : Bytes32) : assemble .ccToLimbs [.bytes d.bytes] = some (.ccToLimbs d) := by
  rw [assemble_ccToLimbs, asBytes32_bytes, Option.map_some]

/-- A CC.FROMPOINT line on two variables (R79, R142). -/
theorem runSequence_ccFromPoint {a b p q : String} {rest : List Line} {h : HostRun} {x y : Int256}
    (hp : h.vars.lookup p = some (.int x)) (hq : h.vars.lookup q = some (.int y)) :
    runSequence (⟨[a, b], .ccFromPoint, [.var p, .var q]⟩ :: rest) h = runSequence rest
      (h.answered [(a, .bytes (be32 x.toNat).bytes), (b, .bytes (be32 y.toNat).bytes)]
        ((be32 x.toNat).bytes ++ (be32 y.toNat).bytes)) :=
  runSequence_cons_of_ok (payload := (be32 x.toNat).bytes ++ (be32 y.toNat).bytes) (operandValues_pair hp hq) rfl rfl
    (exec_ccFromPoint x y) (resultValues_ccFromPoint x y _ _)

/-- A CC.TOLIMBS line on a variable (R79, R141). -/
theorem runSequence_ccToLimbs {a b p : String} {rest : List Line} {h : HostRun} {d : Bytes32}
    (hp : h.vars.lookup p = some (.bytes d.bytes)) :
    runSequence (⟨[a, b], .ccToLimbs, [.var p]⟩ :: rest) h = runSequence rest
      (h.answered [(a, .int (highLimb d)), (b, .int (lowLimb d))]
        (intField (highLimb d).toNat ++ intField (lowLimb d).toNat)) :=
  runSequence_cons_of_ok (operandValues_single hp) (assemble_ccToLimbs_bytes d) rfl (exec_ccToLimbs d)
    (resultValues_ccToLimbs d _ _)

/-- A CC.FROMLIMBS line on two variables that hold the limbs of 32 bytes (R79, R140). -/
theorem runSequence_ccFromLimbs {a p q : String} {rest : List Line} {h : HostRun} {d : Bytes32}
    (hp : h.vars.lookup p = some (.int (highLimb d))) (hq : h.vars.lookup q = some (.int (lowLimb d))) :
    runSequence (⟨[a], .ccFromLimbs, [.var p, .var q]⟩ :: rest) h = runSequence rest
      (h.answered [(a, .bytes d.bytes)] d.bytes) :=
  runSequence_cons_of_ok (operandValues_pair hp hq) rfl rfl (exec_ccFromLimbs_limbs d) (resultValues_ccFromLimbs _ _ d)

/-- A CC.TOPOINT line on two variables that hold the bytes of a point (R79, R143). -/
theorem runSequence_ccToPoint {a b p q : String} {rest : List Line} {h : HostRun} {x y : Int256}
    (hp : h.vars.lookup p = some (.bytes (be32 x.toNat).bytes))
    (hq : h.vars.lookup q = some (.bytes (be32 y.toNat).bytes)) :
    runSequence (⟨[a, b], .ccToPoint, [.var p, .var q]⟩ :: rest) h = runSequence rest
      (h.answered [(a, .int x), (b, .int y)] (intField x.toNat ++ intField y.toNat)) :=
  runSequence_cons_of_ok (operandValues_pair hp hq) (assemble_ccToPoint _ _) rfl (exec_ccToPoint_be32 x y)
    (resultValues_ccToPoint _ _ x y)

/-- CC.PACKPT binds the limbs of both coordinates and keeps BANK (R79). -/
theorem runSequence_ccPackPt {h : HostRun} {x y : Int256} (hx : h.vars.lookup "x" = some (.int x))
    (hy : h.vars.lookup "y" = some (.int y)) : ∃ (ls : List Line) (h' : HostRun),
      expand .ccPackPt ["xh", "xl", "yh", "yl"] [.var "x", .var "y"] = some ls ∧ runSequence ls h = some h' ∧
      h'.vars.lookup "xh" = some (.int (highLimb (be32 x.toNat))) ∧
      h'.vars.lookup "xl" = some (.int (lowLimb (be32 x.toNat))) ∧
      h'.vars.lookup "yh" = some (.int (highLimb (be32 y.toNat))) ∧
      h'.vars.lookup "yl" = some (.int (lowLimb (be32 y.toNat))) ∧ h'.block.bank = h.block.bank := by
  refine ⟨_, _, rfl,
    (runSequence_ccFromPoint hx hy).trans <| (runSequence_ccToLimbs (d := be32 x.toNat) rfl).trans <|
      (runSequence_ccToLimbs (d := be32 y.toNat) rfl).trans rfl, ?_⟩
  exact ⟨rfl, rfl, rfl, rfl, rfl⟩

/-- CC.UNPACKPT of the limbs of a point binds the point, ends with an OK response and keeps BANK (R79, R145). -/
theorem runSequence_ccUnpackPt {h : HostRun} {x y : Int256}
    (hxh : h.vars.lookup "xh" = some (.int (highLimb (be32 x.toNat))))
    (hxl : h.vars.lookup "xl" = some (.int (lowLimb (be32 x.toNat))))
    (hyh : h.vars.lookup "yh" = some (.int (highLimb (be32 y.toNat))))
    (hyl : h.vars.lookup "yl" = some (.int (lowLimb (be32 y.toNat)))) : ∃ (ls : List Line) (h' : HostRun),
      expand .ccUnpackPt ["x2", "y2"] [.var "xh", .var "xl", .var "yh", .var "yl"] = some ls ∧
      runSequence ls h = some h' ∧ h'.vars.lookup "x2" = some (.int x) ∧ h'.vars.lookup "y2" = some (.int y) ∧
      h'.last.head? = some 0x00#8 ∧ h'.block.bank = h.block.bank := by
  refine ⟨_, _, rfl,
    (runSequence_ccFromLimbs hxh hxl).trans <| (runSequence_ccFromLimbs (by exact hyh) (by exact hyl)).trans <|
      (runSequence_ccToPoint (x := x) (y := y) rfl rfl).trans rfl, ?_⟩
  exact ⟨rfl, rfl, rfl, rfl⟩

end Sys2Proof.Machine

namespace Sys2Proof.Proofs

open Sys2Proof.Machine

/-- Settles O33: HS.SPLIT binds the witness and the digest of the message, and FRV.VERIFY accepts them. -/
theorem hsCheckAlwaysAccepts : Obligations.HsCheckAlwaysAccepts := by
  intro msg h name hl hv
  have hw : (Instr.hsSplit msg).WellFormed := decide_eq_true hl
  have hsplit := exec_hsSplit (length_lt_of_wellFormed hw)
  refine ⟨_, _, rfl,
    (runSequence_cons_of_ok (operandValues_single hv) rfl hw hsplit (resultValues_hsSplit msg _ _)).trans <|
      (runSequence_cons_of_ok (operandValues_pair rfl rfl) (assemble_frvVerify_bytes _ _) rfl
        (exec_frvVerify_splitWitness msg) rfl).trans rfl, ?_⟩
  exact ⟨rfl, rfl⟩

/-- Settles O44: the two coordinates become 32 bytes each and these their limbs, and the limbs of 32 bytes give the
32 bytes and the point back. -/
theorem packedPointComesBack : Obligations.PackedPointComesBack := by
  intro x y h hx hy
  obtain ⟨pack, h1, hpack, hrun1, hxh, hxl, hyh, hyl, hbank1⟩ := runSequence_ccPackPt hx hy
  obtain ⟨unpack, h2, hunpack, hrun2, hx2, hy2, hlast, hbank2⟩ := runSequence_ccUnpackPt hxh hxl hyh hyl
  exact ⟨pack, unpack, h1, h2, _, _, _, _, hpack, hunpack, hrun1, hrun2, hxh, hxl, hyh, hyl, toNat_eq_limbs x,
    toNat_eq_limbs y, hx2, hy2, hlast, hbank2.trans hbank1⟩

end Sys2Proof.Proofs

/-! PROOFS. The statements of 40_hash_splitter.md: the commands that read no state, the padding, and the split of a
message from its bytes. -/

namespace Sys2Proof.Proofs

open Sys2Proof.Machine

/-- Settles O14: a command of the three units answers from its operands alone. -/
theorem hashAndCodecIgnoreBank : Obligations.HashAndCodecIgnoreBank :=
  fun _ => exec_ignores_bank

end Sys2Proof.Proofs

/-! ### The padding and the number of blocks (R91, R92) -/

namespace Sys2Proof.Machine

/-- The marker and the trailer fit behind the tail of the message: they share its last block (R92). -/
theorem blockCount_of_tail_le {L : Nat} (h : L % 64 ≤ 55) : blockCount L = L / 64 + 1 := by
  unfold blockCount
  omega

/-- The marker and the trailer do not fit behind the tail of the message: one more block (R92). -/
theorem blockCount_of_tail_gt {L : Nat} (h : ¬ L % 64 ≤ 55) : blockCount L = L / 64 + 2 := by
  unfold blockCount
  omega

/-- A padded message has at least one block (R91). -/
theorem blockCount_pos (L : Nat) : 1 ≤ blockCount L := by
  obtain ⟨j, hj⟩ := exists_last_block L
  omega

/-- The messages of one block (R92, R108). -/
theorem le_55_iff_blockCount_eq_one (L : Nat) : L ≤ 55 ↔ blockCount L = 1 := by
  unfold blockCount
  omega

/-- No smaller number of zero bytes reaches a block boundary: two that do are 64 apart (R91). -/
theorem padZeros_least {L k : Nat} (h : k < padZeros L) : ¬ 64 ∣ L + 1 + k + 8 := by
  obtain ⟨_, hle, hreach⟩ := padZeros_spec L
  omega

end Sys2Proof.Machine

namespace Sys2Proof.Proofs

open Sys2Proof.Machine

/-- Settles O26, with `padZeros` for `k`: it reaches a block boundary and is below 64. -/
theorem paddingReachesBlockBoundary : Obligations.PaddingReachesBlockBoundary := by
  intro S
  obtain ⟨hk, _, hreach⟩ := padZeros_spec S.length
  exact ⟨padZeros S.length, hk, rfl, (pad_length S).trans hreach.symm, pad_length S, rfl, blockCount_pos _,
    fun _ => padZeros_least, fun _ => by omega⟩

/-- Settles O27, by whether the marker and the trailer fit behind the tail. -/
theorem blockCountByLength : Obligations.BlockCountByLength := by
  intro L
  split
  · exact blockCount_of_tail_le ‹_›
  · exact blockCount_of_tail_gt ‹_›

end Sys2Proof.Proofs

/-! ### The split of a message (R93 to R95, R99 to R103, R107, R108) -/

namespace Sys2Proof.Machine

/-- A block inside the string is 64 bytes (R93). -/
theorem blockAt_length {P : Bytes} {j : Nat} (h : 64 * j + 64 ≤ P.length) : (blockAt P j).length = 64 := by
  rw [blockAt, slice_length _ _ _ h, Nat.add_sub_cancel_left]

/-- Byte `k` of block `j` (R93). -/
theorem blockAt_getElem? (P : Bytes) (j : Nat) {k : Nat} (h : k < 64) : (blockAt P j)[k]? = P[64 * j + k]? := by
  rw [blockAt, slice, List.getElem?_drop, List.getElem?_take, if_pos (Nat.add_lt_add_left h _)]

/-- Every block of a padded message lies inside it (R91, R93). -/
theorem block_le_pad_length {S : Bytes} {j : Nat} (h : j < blockCount S.length) :
    64 * j + 64 ≤ (pad S).length := by
  rw [pad_length]
  omega

/-- A compression, lane by lane (R100). -/
theorem compress_lanes (H : CompressionState) (block : Bytes) :
    let z := hashRounds H (schedule block) 64
    compress H block =
      ⟨H.a + z.a, H.b + z.b, H.c + z.c, H.d + z.d, H.e + z.e, H.f + z.f, H.g + z.g, H.h + z.h⟩ := rfl

/-- The chaining state is what the blocks so far, one after another, make of IV (R101). -/
theorem chaining_eq_foldl (P : Bytes) (n : Nat) :
    chaining P n = (List.range n).foldl (fun H j => compress H (blockAt P j)) iv := by
  induction n with
  | zero => rfl
  | succ n ih => rw [List.range_succ, List.foldl_concat, ← ih, chaining_compress]

/-- The digest of a message, lane by lane in big-endian bytes (R44, R103). -/
theorem splitDigest_bytes (S : Bytes) :
    (splitDigest S).bytes =
      (lanes (chaining (pad S) (blockCount S.length))).flatMap fun x => be 4 x.toNat := rfl

/-- The omitted round takes the witness to the state after all 64 rounds of the last block (R102, R107). -/
theorem hashRound_splitWitness (S : Bytes) :
    hashRound (splitWitness S).pen (splitWitness S).rc (splitWitness S).mw =
      hashRounds (chaining (pad S) (blockCount S.length - 1))
        (schedule (blockAt (pad S) (blockCount S.length - 1))) 64 := by
  rw [hashRounds_full, splitWitness_fields]

/-- FRV.VERIFY accepts the witness of a message against its digest (R107, R125). -/
theorem accepts_splitWitness (S : Bytes) : Accepts (splitWitness S) (splitDigest S) :=
  exec_frvVerify_splitWitness S

/-- The witness of a message of one block starts from IV (R108). -/
theorem splitWitness_init_of_le_55 {S : Bytes} (h : S.length ≤ 55) : (splitWitness S).init = iv := by
  rw [splitWitness_eq S ((le_55_iff_blockCount_eq_one _).mp h), chaining_zero]

/-- The round constants in order are the table's entries (R95). -/
theorem map_roundConstant_range : (List.range 64).map roundConstant = roundConstants := by decide

end Sys2Proof.Machine

namespace Sys2Proof.Proofs

open Sys2Proof.Machine

/-- Settles O31: blocks, rounds and chaining step by their own lemmas; the witness verifies because the omitted round is
the last of the full 64. -/
theorem splitWitnessVerifies : Obligations.SplitWitnessVerifies := by
  intro msg P N H W st
  have hblocks : ∀ j < N, (blockAt P j).length = 64 ∧ ∀ k < 64, (blockAt P j)[k]? = P[64 * j + k]? :=
    fun j hj => ⟨blockAt_length (block_le_pad_length hj), fun _ hk => blockAt_getElem? P j hk⟩
  have hround : ∀ j t, st j (t + 1) = hashRound (st j t) (roundConstant t) ((W j).getD t 0) :=
    fun j t => hashRounds_succ (H j) (W j) t
  have hchain : ∀ j, H (j + 1) = compress (H j) (blockAt P j) := chaining_compress P
  exact ⟨hblocks, chaining_zero P,
    fun j _ => ⟨rfl, fun t _ => (hround j t).trans (hashRound_eq _ _ _), (hchain j).trans (compress_lanes _ _)⟩,
    splitWitness_fields msg, splitDigest_bytes msg, hashRound_splitWitness msg, replay_splitWitness msg,
    accepts_splitWitness msg⟩

/-- Settles O32: `rc` is the last entry of the table, and `init` the chaining state before the last block. -/
theorem splitWitnessFacts : Obligations.SplitWitnessFacts :=
  ⟨fun msg => ⟨roundConstant_last, chaining_eq_foldl (pad msg) _, le_55_iff_blockCount_eq_one _,
    splitWitness_init_of_le_55⟩, map_roundConstant_range⟩

end Sys2Proof.Proofs

/-! PROOFS. The statements of 41_final_round_verifier.md: what FRV.VERIFY answers, its candidate digest, and what an
accepted witness does and does not show. -/

/-! ### The answer and the candidate digest (R121 to R125) -/

namespace Sys2Proof.Machine

/-- FRV.VERIFY answers one of two responses and touches nothing else (R125, R126). -/
theorem exec_frvVerify (w : RoundWitness) (d : Bytes32) (s : State) :
    exec (.frvVerify w d) s =
      .next (s.give (if (replay w).bytes = d.bytes then [0x00#8, 0x00#8] else [0x02#8, 0x01#8])) := by
  rw [exec, execFrvVerify]
  split
  · rfl
  · rfl

/-- The packet of FRV.VERIFY: the opcode, the 18 words of the witness, the digest (R62, R64, R66). -/
theorem encode_frvVerify (w : RoundWitness) (d : Bytes32) :
    encode (.frvVerify w d) = 0x20#8 :: (((witnessWords w).flatMap fun x => be 4 x.toNat) ++ d.bytes) := by
  rw [encode, Instr.operands, witnessBytes_eq]
  rfl

/-- The candidate chaining state, lane by lane (R121, R122). -/
theorem candidate_eq (w : RoundWitness) :
    let t1 := w.pen.h + bsig1 w.pen.e + ch w.pen.e w.pen.f w.pen.g + w.rc + w.mw
    let t2 := bsig0 w.pen.a + maj w.pen.a w.pen.b w.pen.c
    candidate w =
      ⟨w.init.a + (t1 + t2), w.init.b + w.pen.a, w.init.c + w.pen.b, w.init.d + w.pen.c,
       w.init.e + (w.pen.d + t1), w.init.f + w.pen.e, w.init.g + w.pen.f, w.init.h + w.pen.g⟩ := by
  intro t1 t2
  rw [candidate, hashRound_eq, chain]

/-- The candidate digest is the lanes of the candidate chaining state in big-endian bytes (R123). -/
theorem replay_bytes (w : RoundWitness) :
    (replay w).bytes = (lanes (candidate w)).flatMap fun x => be 4 x.toNat := rfl

/-- Giving different responses leads to different states (R60). -/
theorem give_inj {s : State} {r r' : Packet} : s.give r = s.give r' ↔ r = r' := by
  simp [State.give]

/-- FRV.VERIFY accepts exactly when the candidate digest is the claimed one (R123, R125). -/
theorem accepts_iff (w : RoundWitness) (d : Bytes32) : Accepts w d ↔ replay w = d := by
  constructor
  · intro h
    have hr := h State.reset
    rw [exec_frvVerify, Host.Outcome.next.injEq, give_inj] at hr
    by_contra hne
    rw [if_neg (fun hb => hne (Bytes32.eq_of_bytes hb))] at hr
    exact absurd hr (by decide)
  · rintro rfl s
    rw [exec_frvVerify, if_pos rfl]

/-- FRV.VERIFY rejects exactly when the candidate digest is not the claimed one (R123, R125). -/
theorem rejects_iff (w : RoundWitness) (d : Bytes32) : Rejects w d ↔ replay w ≠ d := by
  constructor
  · rintro h rfl
    have hr := h State.reset
    rw [exec_frvVerify, Host.Outcome.next.injEq, give_inj, if_pos rfl] at hr
    exact absurd hr (by decide)
  · intro hne s
    rw [exec_frvVerify, if_neg (fun hb => hne (Bytes32.eq_of_bytes hb))]

/-- The candidate digest is the claimed one when the candidate chaining state is the digest's eight words (R123). -/
theorem replay_eq_iff (w : RoundWitness) (d : Bytes32) : replay w = d ↔ candidate w = stateAt d.bytes 0 := by
  constructor
  · rintro rfl
    exact (stateAt_stateBytes (candidate w)).symm
  · intro h
    apply Bytes32.eq_of_bytes
    rw [replay, h]
    exact stateBytes_surjective d

/-- Two witnesses with the same candidate digest have the same candidate chaining state (R123). -/
theorem candidate_eq_of_replay_eq {w w' : RoundWitness} (h : replay w = replay w') : candidate w = candidate w' :=
  stateBytes_injective (congrArg Bytes32.bytes h)

/-- The candidate digest takes `mw` and `rc` through their sum only (R128). -/
theorem replay_of_sum_eq {w : RoundWitness} {mw rc : Word} (h : rc + mw = w.rc + w.mw) :
    replay { w with mw := mw, rc := rc } = replay w := by
  rw [replay, replay, candidate, candidate, hashRound_sum w.pen h]

/-! ### The chaining step undone (R128) -/

/-- The chaining state that the chaining step with `st` brings to `c`: eight lane-wise subtractions (R128). -/
def unchain (c st : CompressionState) : CompressionState :=
  { a := c.a - st.a, b := c.b - st.b, c := c.c - st.c, d := c.d - st.d
    e := c.e - st.e, f := c.f - st.f, g := c.g - st.g, h := c.h - st.h }

theorem chain_unchain (c st : CompressionState) : chain (unchain c st) st = c := by
  simp only [chain, unchain, BitVec.sub_add_cancel]

/-! ### Two witnesses that differ in one word at most (R129) -/

/-- The words of a CompressionState name it (R29). -/
theorem lanes_injective {st st' : CompressionState} (h : lanes st = lanes st') : st = st' := by
  cases st
  cases st'
  simpa [lanes] using h

@[simp] theorem lanes_length (st : CompressionState) : (lanes st).length = 8 := rfl

/-- Lane `i` of `pen` is word `i` of the witness (R30). -/
theorem lanes_pen_getElem? (w : RoundWitness) {i : Nat} (h : i < 8) : (lanes w.pen)[i]? = (witnessWords w)[i]? := by
  rw [witnessWords, List.append_assoc, List.getElem?_append_left h]

/-- Lane `i` of `init` is word `8 + i` of the witness (R30). -/
theorem lanes_init_getElem? (w : RoundWitness) {i : Nat} (h : i < 8) :
    (lanes w.init)[i]? = (witnessWords w)[8 + i]? := by
  rw [witnessWords, List.append_assoc, List.getElem?_append_right (by simp), lanes_length, Nat.add_sub_cancel_left,
    List.getElem?_append_left h]

/-- Two CompressionStates with the same eight lanes are one. -/
theorem eq_of_lanes_getElem? {st st' : CompressionState} (h : ∀ i < 8, (lanes st)[i]? = (lanes st')[i]?) :
    st = st' := by
  refine lanes_injective (List.ext_getElem? fun i => ?_)
  by_cases hi : i < 8
  · exact h i hi
  · rw [List.getElem?_eq_none (Nat.le_of_not_lt hi), List.getElem?_eq_none (Nat.le_of_not_lt hi)]

/-- Lane 4 of a round: `d` and the rest of `T1`, with the words that enter only through their sum put together (R121,
R129). -/
theorem hashRound_e (x : CompressionState) (k w : Word) :
    (hashRound x k w).e = x.d + (x.h + (k + w)) + (bsig1 x.e + ch x.e x.f x.g) := by
  rw [hashRound_eq]
  ac_rfl

/-- What a round does not lose: the six lanes it copies, and the sum that enters `new[4]` (R121, R129). -/
theorem lanes_and_sum_of_hashRound_eq {x x' : CompressionState} {k w k' w' : Word}
    (h : hashRound x k w = hashRound x' k' w') :
    x.a = x'.a ∧ x.b = x'.b ∧ x.c = x'.c ∧ x.e = x'.e ∧ x.f = x'.f ∧ x.g = x'.g ∧
      x.d + (x.h + (k + w)) = x'.d + (x'.h + (k' + w')) := by
  have hnew := congrArg CompressionState.e h
  simp only [hashRound_eq, CompressionState.mk.injEq] at h
  obtain ⟨-, ha, hb, hc, -, he, hf, hg⟩ := h
  rw [hashRound_e, hashRound_e, he, hf, hg, BitVec.add_left_inj] at hnew
  exact ⟨ha, hb, hc, he, hf, hg, hnew⟩

/-- The two witnesses have the same words but for word `k`, which may differ. -/
def AgreeExcept (k : Nat) (w w' : RoundWitness) : Prop :=
  ∀ j : Nat, j ≠ k → (witnessWords w)[j]? = (witnessWords w')[j]?

section

variable {k : Nat} {w w' : RoundWitness}

theorem AgreeExcept.pen_eq (h : AgreeExcept k w w') (hk : 8 ≤ k) : w.pen = w'.pen := by
  refine eq_of_lanes_getElem? fun i hi => ?_
  rw [lanes_pen_getElem? w hi, lanes_pen_getElem? w' hi, h i (by omega)]

theorem AgreeExcept.init_eq (h : AgreeExcept k w w') (hk : ¬ (8 ≤ k ∧ k < 16)) : w.init = w'.init := by
  refine eq_of_lanes_getElem? fun i hi => ?_
  rw [lanes_init_getElem? w hi, lanes_init_getElem? w' hi, h (8 + i) (by omega)]

theorem AgreeExcept.pen_d_eq (h : AgreeExcept k w w') (hk : k ≠ 3) : w.pen.d = w'.pen.d :=
  Option.some.inj (h 3 hk.symm)

theorem AgreeExcept.pen_h_eq (h : AgreeExcept k w w') (hk : k ≠ 7) : w.pen.h = w'.pen.h :=
  Option.some.inj (h 7 hk.symm)

theorem AgreeExcept.mw_eq (h : AgreeExcept k w w') (hk : k ≠ 16) : w.mw = w'.mw :=
  Option.some.inj (h 16 hk.symm)

theorem AgreeExcept.rc_eq (h : AgreeExcept k w w') (hk : k ≠ 17) : w.rc = w'.rc :=
  Option.some.inj (h 17 hk.symm)

/-- Of the four words whose sum enters `new[4]` (`pen[3]`, `pen[7]`, `rc`, `mw`) none can change alone (R129). -/
theorem AgreeExcept.summands_eq (h : AgreeExcept k w w')
    (hs : w.pen.d + (w.pen.h + (w.rc + w.mw)) = w'.pen.d + (w'.pen.h + (w'.rc + w'.mw))) :
    w.pen.d = w'.pen.d ∧ w.pen.h = w'.pen.h ∧ w.rc = w'.rc ∧ w.mw = w'.mw := by
  have hd : w.pen.d = w'.pen.d := by
    by_cases hk : k = 3
    · rwa [h.pen_h_eq (by omega), h.rc_eq (by omega), h.mw_eq (by omega), BitVec.add_left_inj] at hs
    · exact h.pen_d_eq hk
  rw [hd, BitVec.add_right_inj] at hs
  have hh : w.pen.h = w'.pen.h := by
    by_cases hk : k = 7
    · rwa [h.rc_eq (by omega), h.mw_eq (by omega), BitVec.add_left_inj] at hs
    · exact h.pen_h_eq hk
  rw [hh, BitVec.add_right_inj] at hs
  have hr : w.rc = w'.rc := by
    by_cases hk : k = 17
    · rwa [h.mw_eq (by omega), BitVec.add_left_inj] at hs
    · exact h.rc_eq hk
  rw [hr, BitVec.add_right_inj] at hs
  exact ⟨hd, hh, hr, hs⟩

/-- Of the words of `pen`, `mw` and `rc` none can change alone without changing the round (R129). -/
theorem AgreeExcept.eq_of_hashRound_eq (h : AgreeExcept k w w') (hinit : w.init = w'.init)
    (hround : hashRound w.pen w.rc w.mw = hashRound w'.pen w'.rc w'.mw) : w = w' := by
  obtain ⟨ha, hb, hc, he, hf, hg, hs⟩ := lanes_and_sum_of_hashRound_eq hround
  obtain ⟨hd, hh, hr, hm⟩ := h.summands_eq hs
  rw [RoundWitness.mk.injEq, CompressionState.mk.injEq]
  exact ⟨⟨ha, hb, hc, hd, he, hf, hg, hh⟩, hinit, hm, hr⟩

/-- No word of a witness can change alone without changing the candidate chaining state: one of `init` changes its lane
in the chaining step, any other the round (R129). -/
theorem AgreeExcept.eq_of_candidate_eq (h : AgreeExcept k w w') (hc : candidate w = candidate w') : w = w' := by
  rw [candidate, candidate] at hc
  by_cases hk : 8 ≤ k ∧ k < 16
  · have hp := h.pen_eq hk.1
    have hm := h.mw_eq (by omega)
    have hr := h.rc_eq (by omega)
    rw [hp, hm, hr] at hc
    rw [RoundWitness.mk.injEq]
    exact ⟨hp, chain_left_cancel hc, hm, hr⟩
  · have hinit := h.init_eq hk
    rw [hinit] at hc
    exact h.eq_of_hashRound_eq hinit (chain_right_cancel hc)

end

end Sys2Proof.Machine

namespace Sys2Proof.Proofs

open Sys2Proof.Machine

/-- Settles O34, by the packet and the answer of FRV.VERIFY. -/
theorem frvVerifyAnswers : Obligations.FrvVerifyAnswers :=
  fun w d s => ⟨encode_frvVerify w d, exec_frvVerify w d s⟩

/-- Settles O35, by the lanes of the candidate chaining state. -/
theorem candidateDigestLanes : Obligations.CandidateDigestLanes := by
  intro w t1 t2
  rw [replay_bytes, candidate_eq, lanes]

/-- Settles O36: the two candidate digests are equal. -/
theorem onlyTheSumOfMwAndRcCounts : Obligations.OnlyTheSumOfMwAndRcCounts := by
  intro w mw rc d h
  rw [accepts_iff, accepts_iff, rejects_iff, rejects_iff, replay_of_sum_eq h]
  exact ⟨Iff.rfl, Iff.rfl⟩

/-- Settles O37: the chaining step is undone from the words of the digest, in one way. -/
theorem everyDigestHasAWitness : Obligations.EveryDigestHasAWitness := by
  intro pen mw rc d
  have hiff : ∀ init, Accepts ⟨pen, init, mw, rc⟩ d ↔ chain init (hashRound pen rc mw) = stateAt d.bytes 0 :=
    fun init => (accepts_iff _ _).trans (replay_eq_iff _ _)
  refine ⟨unchain (stateAt d.bytes 0) (hashRound pen rc mw), (hiff _).mpr (chain_unchain _ _), fun init h => ?_⟩
  exact chain_left_cancel (((hiff init).mp h).trans (chain_unchain _ _).symm)

/-- Settles O38: a witness with one word changed has another candidate chaining state, and a witness has one candidate
digest. -/
theorem singleFieldChangeRejects : Obligations.SingleFieldChangeRejects := by
  intro w d hacc
  rw [accepts_iff] at hacc
  subst hacc
  refine ⟨fun w' k hne hagree => (rejects_iff w' _).mpr fun heq => hne ?_,
    fun d' hne => (rejects_iff w d').mpr hne.symm⟩
  have hw : w = w' := AgreeExcept.eq_of_candidate_eq hagree (candidate_eq_of_replay_eq heq.symm)
  rw [hw]

end Sys2Proof.Proofs

/-! PROOFS. The statements of 42_commitment_codec.md: what CC.FROMLIMBS, CC.TOLIMBS and CC.TOPOINT answer, byte by
byte. -/

/-! ### The fields of a response (R47, R137, R141) -/

namespace Sys2Proof.Machine

/-- A big-endian field wider than its value begins with zero bytes (R14). -/
theorem be_add_of_lt (m : Nat) {n v : Nat} (h : v < 256 ^ n) :
    be (m + n) v = List.replicate m 0x00#8 ++ be n v := by
  induction m with
  | zero => rw [Nat.zero_add, List.replicate_zero, List.nil_append]
  | succ m ih =>
    have hle : 256 ^ n ≤ 256 ^ (m + n) := Nat.pow_le_pow_right (by decide) (Nat.le_add_left n m)
    rw [Nat.add_right_comm, be, Nat.div_eq_of_lt (h.trans_le hle), ih, List.replicate_succ,
      List.cons_append]

/-- What 16 bytes fold to, as an INT256 field, is the 16 bytes below 16 zero bytes (R141). -/
theorem intField_fold_of_length_16 {f : Bytes} (hf : f.length = 16) :
    intField (fold f) = List.replicate 16 0x00#8 ++ f := by
  have hlt : fold f < 256 ^ 16 := hf ▸ fold_lt f
  have hback : be 16 (fold f) = f := hf ▸ be_fold f
  rw [intField, be_add_of_lt 16 hlt, hback]

/-- What 32 bytes fold to, as an INT256 field, is the 32 bytes (R143). -/
theorem intField_fold (d : Bytes32) : intField (fold d.bytes) = d.bytes :=
  congrArg Bytes32.bytes (be32_fold d)

/-- The limbs of 32 bytes are what their two halves fold to (R137). -/
theorem toLimbs_eq (d : Bytes32) : toLimbs d = (fold (d.bytes.take 16), fold (d.bytes.drop 16)) := by
  rw [toLimbs, slice, slice, List.drop_zero, List.take_of_length_le d.size.le]

/-! ### The answers (R140, R141, R143) -/

/-- The response to CC.FROMLIMBS: LIMB_HIGH before LIMB_LOW before the instance, and no SELFCHECK (R140). -/
theorem exec_ccFromLimbs (high low : Int256) (s : State) :
    exec (.ccFromLimbs high low) s = .next (s.give (
      if 2 ^ 128 ≤ high.toNat then errorResponse .limbHigh
      else if 2 ^ 128 ≤ low.toNat then errorResponse .limbLow
      else okResponse (be 16 high.toNat ++ be 16 low.toNat))) := by
  rw [exec, execCcFromLimbs]
  rcases fromLimbs_spec high.toNat low.toNat with ⟨hh, h⟩ | ⟨hh, hl, h⟩ | ⟨hh, hl, h⟩
  · rw [h, if_pos hh]
    rfl
  · rw [h, if_neg hh.not_ge, if_pos hl]
    rfl
  · rw [h, if_neg hh.not_ge, if_neg hl.not_ge]
    rfl

/-- CC.TOLIMBS answers the two halves of the instance, each below 16 zero bytes (R141). -/
theorem exec_ccToLimbs_halves (d : Bytes32) (s : State) :
    exec (.ccToLimbs d) s = respondOK ((List.replicate 16 0x00#8 ++ d.bytes.take 16) ++
      (List.replicate 16 0x00#8 ++ d.bytes.drop 16)) s := by
  have htake : (d.bytes.take 16).length = 16 := by rw [List.length_take, d.size]; rfl
  have hdrop : (d.bytes.drop 16).length = 16 := by rw [List.length_drop, d.size]
  rw [exec, execCcToLimbs, toLimbs_eq, intField_fold_of_length_16 htake, intField_fold_of_length_16 hdrop]

/-- CC.TOPOINT answers the bytes of its two operands (R143). -/
theorem exec_ccToPoint (bx byy : Bytes32) (s : State) :
    exec (.ccToPoint bx byy) s = respondOK (bx.bytes ++ byy.bytes) s := by
  rw [exec, execCcToPoint, toPoint_eq, intField_fold, intField_fold]

end Sys2Proof.Machine

namespace Sys2Proof.Proofs

open Sys2Proof.Machine

/-- Settles O39: the three cases of the limbs' bounds, with the bytes of each response. -/
theorem ccFromLimbsAnswers : Obligations.CcFromLimbsAnswers := by
  intro high low s
  refine ⟨rfl, ?_⟩
  rw [exec_ccFromLimbs, okResponse_append]
  rfl

/-- Settles O40: a half of the instance, folded and written as 32 bytes, is itself below 16 zero bytes. -/
theorem ccToLimbsAnswers : Obligations.CcToLimbsAnswers := by
  intro inst s
  refine ⟨rfl, ?_⟩
  rw [exec_ccToLimbs_halves, respondOK, okResponse_append, ← List.append_assoc, ← List.append_assoc]

/-- Settles O42: an instance, folded and written as 32 bytes, is itself. -/
theorem ccToPointAnswers : Obligations.CcToPointAnswers := by
  intro bx byy s
  refine ⟨rfl, toPoint_eq bx byy, ?_⟩
  rw [exec_ccToPoint, respondOK, okResponse_append]

end Sys2Proof.Proofs

/-! PROOFS. The statements of 43_counter_bank.md: what each command of the counter bank answers, what it writes and what
it leaves. -/

/-! ### The bank after a direct write (R22, R177, R178) -/

namespace Sys2Proof.Machine

/-- A write of `c[i]` leaves every other counter (R177). -/
theorem slot_writeSlot_of_ne (bank : Bank) {i v j : Nat} (hi : i ≤ 24) (hv : v ≤ 1023) (hj : j ≤ 24) (hne : j ≠ i) :
    slot (writeSlot bank i v) j = slot bank j := by
  obtain ⟨_, _, _, _, hs, _⟩ := setCounter_slots (setCounter_eq_writeSlot bank hi hv)
  exact hs j hj hne

/-- A write of `c[i]` leaves the headroom (R178). -/
theorem headroom_writeSlot (bank : Bank) {i v : Nat} (hi : i ≤ 24) (hv : v ≤ 1023) :
    headroom (writeSlot bank i v) = headroom bank := by
  obtain ⟨_, _, _, hh, _⟩ := setCounter_slots (setCounter_eq_writeSlot bank hi hv)
  exact hh

/-- Writing into a counter the value it holds changes nothing. -/
theorem writeSlot_slot_self (bank : Bank) {i : Nat} (hi : i ≤ 24) : writeSlot bank i (slot bank i) = bank := by
  apply BitVec.eq_of_toNat_eq
  rw [writeSlot_toNat bank hi (slot_le bank i), Nat.sub_add_cancel (slot_mul_le bank i)]

/-- Writing a counter twice with one value is writing it once (R56). -/
theorem writeSlot_writeSlot_same (bank : Bank) {i v : Nat} (hi : i ≤ 24) (hv : v ≤ 1023) :
    writeSlot (writeSlot bank i v) i v = writeSlot bank i v := by
  have h := writeSlot_slot_self (writeSlot bank i v) hi
  rwa [slot_writeSlot_same bank hi hv] at h

/-- The next value of `c[i]` is `2^(10i)` more in BANK, with no carry out of the slot (R164). -/
theorem writeSlot_succ_toNat (bank : Bank) {i : Nat} (hi : i ≤ 24) (hs : slot bank i < 1023) :
    (writeSlot bank i (slot bank i + 1)).toNat = bank.toNat + 2 ^ (10 * i) := by
  rw [writeSlot_toNat bank (v := slot bank i + 1) hi hs, Nat.add_one_mul (slot bank i), ← Nat.add_assoc,
    Nat.sub_add_cancel (slot_mul_le bank i)]

/-! ### The answers of the eight commands (R168 to R175) -/

/-- A scalar below `2^254` is the register's value, nothing of it lost (R21). -/
theorem bank_ofNat_toNat {n : Nat} (h : n < 2 ^ 254) : (BitVec.ofNat 254 n).toNat = n := by
  rw [BitVec.toNat_ofNat, Nat.mod_eq_of_lt h]

/-- SCB.LOAD of a scalar that fits writes BANK whole (R168). -/
theorem exec_scbLoad_of_lt {v : Int256} (s : State) (h : v.toNat < 2 ^ 254) :
    exec (.scbLoad v) s = respondOK [] (s.writeBank (BitVec.ofNat 254 v.toNat)) :=
  if_neg (Nat.not_le.mpr h)

/-- SCB.LOAD of a scalar that does not fit is refused (R168). -/
theorem exec_scbLoad_of_ge {v : Int256} (s : State) (h : 2 ^ 254 ≤ v.toNat) :
    exec (.scbLoad v) s = raise .bankWidth s :=
  if_pos h

/-- SCB.STORE answers BANK whole (R169). -/
theorem exec_scbStore (s : State) : exec .scbStore s = respondOK (be 32 s.bank.toNat) s := rfl

/-- SCB.GET answers the slot, or COUNTER_ID (R170). -/
theorem exec_scbGet (id : Int256) (s : State) :
    exec (.scbGet id) s = .next (s.give (
      if 24 < id.toNat then errorResponse .counterId else okResponse (be 32 (slot s.bank id.toNat)))) := by
  rw [exec, execScbGet, getCounter_eq]
  by_cases h : 24 < id.toNat
  · rw [if_pos h, if_pos h]
    rfl
  · rw [if_neg h, if_neg h]
    rfl

/-- SCB.ISFULL answers whether the slot is 1023, or COUNTER_ID (R173). -/
theorem exec_scbIsFull (id : Int256) (s : State) :
    exec (.scbIsFull id) s = .next (s.give (
      if 24 < id.toNat then errorResponse .counterId
      else okResponse (if slot s.bank id.toNat = 1023 then [0x01#8] else [0x00#8]))) := by
  rw [exec, execScbIsFull, isFull, getCounter_eq]
  by_cases h : 24 < id.toNat
  · rw [if_pos h, if_pos h]
    rfl
  · rw [if_neg h, if_neg h]
    by_cases hfull : slot s.bank id.toNat = 1023
    · rw [if_pos hfull, hfull]
      rfl
    · have hbeq : (slot s.bank id.toNat == Config.counterMax) = false := beq_eq_false_iff_ne.mpr hfull
      simp only [hbeq, if_neg hfull]
      rfl

/-- SCB.SET of an id above 24 is refused, whatever the value (R171). -/
theorem exec_scbSet_of_id_gt {id : Int256} (newValue : Int256) (s : State) (h : 24 < id.toNat) :
    exec (.scbSet id newValue) s = raise .counterId s := by
  rw [exec, execScbSet, setCounter, if_pos h]

/-- SCB.SET of a value above 1023 is refused, once the id has passed (R171). -/
theorem exec_scbSet_of_value_gt {id newValue : Int256} (s : State) (hid : id.toNat ≤ 24)
    (hv : 1023 < newValue.toNat) : exec (.scbSet id newValue) s = raise .counterValue s := by
  have hmax : newValue.toNat > Config.counterMax := hv
  rw [exec, execScbSet, setCounter, if_neg hid.not_gt, if_pos hmax]

/-- SCB.INC of an id above 24 is refused (R172). -/
theorem exec_scbInc_of_id_gt {id : Int256} (s : State) (h : 24 < id.toNat) :
    exec (.scbInc id) s = raise .counterId s := by
  rw [exec, execScbInc, incrementCounter, getCounter_eq, if_pos h]

/-- SCB.INC of a full counter is refused (R172). -/
theorem exec_scbInc_of_full {id : Int256} (s : State) (hid : id.toNat ≤ 24) (hs : slot s.bank id.toNat = 1023) :
    exec (.scbInc id) s = raise .saturated s := by
  rcases incrementCounter_spec s.bank id.toNat with ⟨h, _⟩ | ⟨_, _, h⟩ | ⟨_, h, _⟩
  · omega
  · rw [exec, execScbInc, h]
  · omega

/-- SCB.INC of a counter that is not full writes its next value (R172). -/
theorem exec_scbInc_of_lt {id : Int256} (s : State) (hid : id.toNat ≤ 24) (hs : slot s.bank id.toNat < 1023) :
    exec (.scbInc id) s =
      respondOK [] (s.writeBank (writeSlot s.bank id.toNat (slot s.bank id.toNat + 1))) := by
  rcases incrementCounter_spec s.bank id.toNat with ⟨h, _⟩ | ⟨_, h, _⟩ | ⟨_, _, h⟩
  · omega
  · omega
  · rw [exec, execScbInc, h, setCounter_eq_writeSlot s.bank hid hs]

end Sys2Proof.Machine

namespace Sys2Proof.Proofs

open Sys2Proof.Machine

/-- Settles O48: the scalar fits the register or is refused. -/
theorem scbLoadAnswers : Obligations.ScbLoadAnswers :=
  fun _ s => ⟨rfl, fun h => ⟨_, bank_ofNat_toNat h, exec_scbLoad_of_lt s h⟩, exec_scbLoad_of_ge s⟩

/-- Settles O49: BANK is answered whole, and after reset it is 0. -/
theorem scbStoreAnswers : Obligations.ScbStoreAnswers :=
  ⟨rfl, exec_scbStore, exec_scbStore State.reset⟩

/-- Settles O50: the reading scan ends on the slot. -/
theorem scbGetAnswers : Obligations.ScbGetAnswers :=
  fun id s => ⟨rfl, exec_scbGet id s⟩

/-- Settles O51: the id, then the value, then the direct write of the slot. -/
theorem scbSetAnswers : Obligations.ScbSetAnswers := by
  intro id newValue s
  refine ⟨rfl, exec_scbSet_of_id_gt newValue s, exec_scbSet_of_value_gt s, fun hid hv => ?_⟩
  exact ⟨_, exec_scbSet_of_le s hid hv, slot_writeSlot_same s.bank hid hv, headroom_writeSlot s.bank hid hv,
    fun _ hi hne => slot_writeSlot_of_ne s.bank hid hv hi hne⟩

/-- Settles O52: the id, then saturation, then the direct write of the next value. -/
theorem scbIncAnswers : Obligations.ScbIncAnswers := by
  intro id s
  refine ⟨rfl, exec_scbInc_of_id_gt s, exec_scbInc_of_full s, fun hid hne => ?_⟩
  have hs : slot s.bank id.toNat < 1023 := Nat.lt_of_le_of_ne (slot_le _ _) hne
  exact ⟨_, exec_scbInc_of_lt s hid hs, slot_writeSlot_same s.bank hid hs, writeSlot_succ_toNat s.bank hid hs,
    headroom_writeSlot s.bank hid hs, fun _ hi hne' => slot_writeSlot_of_ne s.bank hid hs hi hne'⟩

/-- Settles O53: the reading scan ends on the slot, which is 1023 or is not. -/
theorem scbIsFullAnswers : Obligations.ScbIsFullAnswers := by
  intro id s
  refine ⟨rfl, ?_⟩
  rw [exec_scbIsFull, apply_ite okResponse]
  rfl

end Sys2Proof.Proofs

/-! ### The reductions over all counters (R166, R167, R178) -/

namespace Sys2Proof.Machine

/-- Two banks that differ in the headroom only have the same total (R178). -/
theorem totalCount_congr {b b' : Bank} (h : b.toNat % 2 ^ 250 = b'.toNat % 2 ^ 250) :
    totalCount b = totalCount b' := by
  have hslots : (List.range Config.numCounters).map (slot b) = (List.range Config.numCounters).map (slot b') :=
    List.map_congr_left fun _ hi => slot_congr h (Nat.le_of_lt_succ (List.mem_range.mp hi))
  rw [totalCount, hslots, totalCount]

/-- The lowest index of a largest counter, with that counter, is what `findMax` answers: there is no second such pair
(R167). -/
theorem findMax_eq {bank : Bank} {index value : Nat} (hi : index ≤ 24) (hv : value = slot bank index)
    (hmax : ∀ i, i ≤ 24 → slot bank i ≤ value) (hlow : ∀ i, i < index → slot bank i < value) :
    findMax bank = (index, value) := by
  obtain ⟨hi', hv', hmax', hlow'⟩ := findMax_spec bank
  have hvalue : (findMax bank).2 = value := Nat.le_antisymm (hv' ▸ hmax _ hi') (hv ▸ hmax' _ hi)
  have hindex : (findMax bank).1 = index := by
    rcases Nat.lt_trichotomy (findMax bank).1 index with hlt | heq | hgt
    · have := hlow _ hlt
      omega
    · exact heq
    · have := hlow' _ hgt
      omega
  rw [← hindex, ← hvalue]

/-- Two banks that differ in the headroom only have the same maximum, at the same index (R178). -/
theorem findMax_congr {b b' : Bank} (h : b.toNat % 2 ^ 250 = b'.toNat % 2 ^ 250) : findMax b = findMax b' := by
  obtain ⟨hi, hv, hmax, hlow⟩ := findMax_spec b'
  have key : findMax b = ((findMax b').1, (findMax b').2) :=
    findMax_eq hi (hv.trans (slot_congr h hi).symm) (fun i hi' => (slot_congr h hi').trans_le (hmax i hi'))
      fun i hlt => (slot_congr h (hlt.le.trans hi)).trans_lt (hlow i hlt)
  exact key

/-- SCB.TOTAL answers the sum (R174). -/
theorem exec_scbTotal (s : State) : exec .scbTotal s = respondOK (be 32 (totalCount s.bank)) s := rfl

/-- SCB.FINDMAX answers the index and the value (R175). -/
theorem exec_scbFindMax (s : State) :
    exec .scbFindMax s = respondOK (be 32 (findMax s.bank).1 ++ be 32 (findMax s.bank).2) s := rfl

end Sys2Proof.Machine

namespace Sys2Proof.Proofs

open Sys2Proof.Machine

/-- Settles O54: the sum reads the 25 slots and nothing else of BANK. -/
theorem scbTotalAnswers : Obligations.ScbTotalAnswers :=
  ⟨rfl, fun s => ⟨totalCount s.bank, exec_scbTotal s, rfl, totalCount_le s.bank, fun _ => totalCount_congr⟩⟩

/-- Settles O55: what the maximum scan ends on, which the 25 slots determine. -/
theorem scbFindMaxAnswers : Obligations.ScbFindMaxAnswers := by
  refine ⟨rfl, fun s => ?_⟩
  obtain ⟨hi, hv, hmax, hlow⟩ := findMax_spec s.bank
  refine ⟨(findMax s.bank).1, (findMax s.bank).2, ?_, hi, hv, hmax, hlow, fun _ => findMax_congr⟩
  rw [exec_scbFindMax, respondOK, okResponse_append]

end Sys2Proof.Proofs

/-! ### What a command leaves of BANK (R37, R177, R178) -/

namespace Sys2Proof.Machine

/-- HS.SPLIT that gives a next state gives one more response and nothing else (R104). -/
theorem exec_hsSplit_next {msg : Bytes} {s t : State} (h : exec (.hsSplit msg) s = .next t) :
    ∃ r : Packet, t = s.give r := by
  by_cases hl : msg.length < Config.trailerLimit
  · rw [exec_hsSplit hl] at h
    exact ⟨_, respondOK_spec h⟩
  · rw [exec, execHsSplit, if_neg hl] at h
    cases h

/-- All that a command other than SCB.LOAD, SCB.SET and SCB.INC can do: it gives one response and writes nothing
(R37). -/
theorem exec_next_of_reader {i : Instr} {s t : State} (h : exec i s = .next t) (hload : ∀ v, i ≠ .scbLoad v)
    (hset : ∀ id v, i ≠ .scbSet id v) (hinc : ∀ id, i ≠ .scbInc id) : ∃ r : Packet, t = s.give r := by
  by_cases hu : i.unit = .scb
  · cases i with
    | scbLoad v => exact absurd rfl (hload v)
    | scbStore => exact ⟨_, respondOK_spec h⟩
    | scbGet id =>
      rw [exec_scbGet] at h
      cases h
      exact ⟨_, rfl⟩
    | scbSet id v => exact absurd rfl (hset id v)
    | scbInc id => exact absurd rfl (hinc id)
    | scbIsFull id =>
      rw [exec_scbIsFull] at h
      cases h
      exact ⟨_, rfl⟩
    | scbTotal => exact ⟨_, respondOK_spec h⟩
    | scbFindMax => exact ⟨_, respondOK_spec h⟩
    | _ => cases hu
  · by_cases hwf : i.WellFormed
    · obtain ⟨r, hr⟩ := exec_ignores_bank hwf hu
      rw [hr] at h
      cases h
      exact ⟨r, rfl⟩
    · cases i with
      | hsSplit msg => exact exec_hsSplit_next h
      | _ => exact absurd rfl hwf

/-- The bank `b'` is `b`, or `b` with counter `id` at some value: what SCB.SET and SCB.INC of that id can leave. -/
def WritesOnly (id : Nat) (b b' : Bank) : Prop :=
  b' = b ∨ (id ≤ 24 ∧ ∃ v ≤ 1023, b' = writeSlot b id v)

/-- Every counter but the one written is as it was (R177). -/
theorem WritesOnly.slot_eq {id : Nat} {b b' : Bank} (h : WritesOnly id b b') {j : Nat} (hj : j ≤ 24) (hne : j ≠ id) :
    slot b' j = slot b j := by
  obtain rfl | ⟨hid, v, hv, rfl⟩ := h
  · rfl
  · exact slot_writeSlot_of_ne b hid hv hj hne

/-- The headroom is as it was (R178). -/
theorem WritesOnly.headroom_eq {id : Nat} {b b' : Bank} (h : WritesOnly id b b') : headroom b' = headroom b := by
  obtain rfl | ⟨hid, v, hv, rfl⟩ := h
  · rfl
  · exact headroom_writeSlot b hid hv

/-- SCB.SET writes its counter or nothing (R171). -/
theorem exec_scbSet_writesOnly {id newValue : Int256} {s t : State} (h : exec (.scbSet id newValue) s = .next t) :
    WritesOnly id.toNat s.bank t.bank := by
  rcases Nat.lt_or_ge 24 id.toNat with hgt | hid
  · rw [exec_scbSet_of_id_gt newValue s hgt] at h
    exact .inl (by rw [raise_spec h, give_bank])
  · rcases Nat.lt_or_ge 1023 newValue.toNat with hgt | hv
    · rw [exec_scbSet_of_value_gt s hid hgt] at h
      exact .inl (by rw [raise_spec h, give_bank])
    · rw [exec_scbSet_of_le s hid hv] at h
      exact .inr ⟨hid, _, hv, by rw [respondOK_spec h, give_bank, writeBank_bank]⟩

/-- SCB.INC writes its counter or nothing (R172). -/
theorem exec_scbInc_writesOnly {id : Int256} {s t : State} (h : exec (.scbInc id) s = .next t) :
    WritesOnly id.toNat s.bank t.bank := by
  rcases Nat.lt_or_ge 24 id.toNat with hgt | hid
  · rw [exec_scbInc_of_id_gt s hgt] at h
    exact .inl (by rw [raise_spec h, give_bank])
  · rcases Nat.lt_or_eq_of_le (slot_le s.bank id.toNat) with hs | hs
    · rw [exec_scbInc_of_lt s hid hs] at h
      exact .inr ⟨hid, _, hs, by rw [respondOK_spec h, give_bank, writeBank_bank]⟩
    · rw [exec_scbInc_of_full s hid hs] at h
      exact .inl (by rw [raise_spec h, give_bank])

/-- Every command but SCB.LOAD keeps the headroom (R178). -/
theorem exec_headroom {i : Instr} {s t : State} (h : exec i s = .next t) (hload : ∀ v, i ≠ .scbLoad v) :
    headroom t.bank = headroom s.bank := by
  by_cases hset : ∃ id v, i = .scbSet id v
  · obtain ⟨id, v, rfl⟩ := hset
    exact (exec_scbSet_writesOnly h).headroom_eq
  · by_cases hinc : ∃ id, i = .scbInc id
    · obtain ⟨id, rfl⟩ := hinc
      exact (exec_scbInc_writesOnly h).headroom_eq
    · push Not at hset hinc
      obtain ⟨r, rfl⟩ := exec_next_of_reader h hload hset hinc
      rfl

/-- The response of SCB.GET and of SCB.ISFULL in two banks that differ in the headroom only: the id is out of range in
both, or the counter is the same (R178). -/
theorem ite_slot_congr {b b' : Bank} (h : b.toNat % 2 ^ 250 = b'.toNat % 2 ^ 250) (id : Nat) (e : Packet)
    (f : Nat → Packet) : (if 24 < id then e else f (slot b id)) = if 24 < id then e else f (slot b' id) := by
  by_cases hid : 24 < id
  · rw [if_pos hid, if_pos hid]
  · rw [slot_congr h (Nat.le_of_not_lt hid)]

end Sys2Proof.Machine

namespace Sys2Proof.Proofs

open Sys2Proof.Machine

/-- Settles O15: every other command gives one response and writes nothing. -/
theorem onlyThreeCommandsWriteBank : Obligations.OnlyThreeCommandsWriteBank := by
  intro i s t h hload hset hinc
  obtain ⟨r, rfl⟩ := exec_next_of_reader h hload hset hinc
  exact ⟨rfl, rfl⟩

/-- Settles O56: the bank left is the bank before but for the one counter, and reading gives the slot. -/
theorem slotsAreIndependent : Obligations.SlotsAreIndependent := by
  intro i id s t hi h other hother hne
  have hw : WritesOnly id.toNat s.bank t.bank := by
    obtain rfl | ⟨newValue, rfl⟩ := hi
    · exact exec_scbInc_writesOnly h
    · exact exec_scbSet_writesOnly h
  have hslot := hw.slot_eq hother hne
  exact ⟨by rw [getCounter_eq, getCounter_eq, hslot], hslot⟩

/-- Settles O57: the headroom is the top of the scalar SCB.LOAD takes and SCB.STORE answers, and the four readers
answer from the slots. -/
theorem headroomIsCarried : Obligations.HeadroomIsCarried := by
  refine ⟨fun v s hv => ⟨_, exec_scbLoad_of_lt s hv, ?_⟩, fun _ _ _ h hload => exec_headroom h hload,
    fun s => ⟨s.bank.toNat, (headroom_eq s.bank).symm, exec_scbStore s⟩, fun i s b hb hi => ?_⟩
  · rw [headroom_eq, bank_ofNat_toNat hv]
  · obtain rfl | rfl | ⟨id, rfl | rfl⟩ := hi
    · refine ⟨_, exec_scbTotal s, ?_⟩
      rw [exec_scbTotal, writeBank_bank, totalCount_congr hb]
      rfl
    · refine ⟨_, exec_scbFindMax s, ?_⟩
      rw [exec_scbFindMax, writeBank_bank, findMax_congr hb]
      rfl
    · refine ⟨_, exec_scbGet id s, ?_⟩
      rw [exec_scbGet, writeBank_bank, ite_slot_congr hb id.toNat _ fun n => okResponse (be 32 n)]
    · refine ⟨_, exec_scbIsFull id s, ?_⟩
      rw [exec_scbIsFull, writeBank_bank,
        ite_slot_congr hb id.toNat _ fun n => okResponse (if n = 1023 then [0x01#8] else [0x00#8])]

end Sys2Proof.Proofs

/-! ### The same command again (R56) -/

namespace Sys2Proof.Machine

/-- SCB.LOAD again answers the same and leaves BANK. -/
theorem exec_scbLoad_again {v : Int256} {s t : State} (h : exec (.scbLoad v) s = .next t) :
    ∃ r : Packet, t.sent = s.sent ++ [r] ∧ exec (.scbLoad v) t = .next (t.give r) := by
  rcases Nat.lt_or_ge v.toNat (2 ^ 254) with hlt | hge
  · rw [exec_scbLoad_of_lt s hlt] at h
    obtain rfl := respondOK_spec h
    exact ⟨_, rfl, exec_scbLoad_of_lt _ hlt⟩
  · rw [exec_scbLoad_of_ge s hge] at h
    obtain rfl := raise_spec h
    exact ⟨_, rfl, exec_scbLoad_of_ge _ hge⟩

/-- SCB.SET again answers the same and leaves BANK: it writes the value the counter already holds. -/
theorem exec_scbSet_again {id newValue : Int256} {s t : State} (h : exec (.scbSet id newValue) s = .next t) :
    ∃ r : Packet, t.sent = s.sent ++ [r] ∧ exec (.scbSet id newValue) t = .next (t.give r) := by
  rcases Nat.lt_or_ge 24 id.toNat with hgt | hid
  · rw [exec_scbSet_of_id_gt newValue s hgt] at h
    obtain rfl := raise_spec h
    exact ⟨_, rfl, exec_scbSet_of_id_gt newValue _ hgt⟩
  · rcases Nat.lt_or_ge 1023 newValue.toNat with hgt | hv
    · rw [exec_scbSet_of_value_gt s hid hgt] at h
      obtain rfl := raise_spec h
      exact ⟨_, rfl, exec_scbSet_of_value_gt _ hid hgt⟩
    · rw [exec_scbSet_of_le s hid hv] at h
      obtain rfl := respondOK_spec h
      refine ⟨_, rfl, ?_⟩
      rw [exec_scbSet_of_le _ hid hv, give_bank, writeBank_bank, writeSlot_writeSlot_same s.bank hid hv]
      rfl

/-- A well-formed command other than SCB.LOAD, SCB.SET and SCB.INC again answers the same, since it has left the BANK it
read. -/
theorem exec_reader_again {i : Instr} {s t : State} (hwf : i.WellFormed) (h : exec i s = .next t)
    (hload : ∀ v, i ≠ .scbLoad v) (hset : ∀ id v, i ≠ .scbSet id v) (hinc : ∀ id, i ≠ .scbInc id) :
    ∃ r : Packet, t.bank = s.bank ∧ t.sent = s.sent ++ [r] ∧ exec i t = .next (t.give r) := by
  obtain ⟨r, rfl⟩ := exec_next_of_reader h hload hset hinc
  obtain ⟨b', r', hans⟩ := exec_answersAt hwf s.bank
  have heq : s.give r = (s.writeBank b').give r' := Host.Outcome.next.inj (h.symm.trans (hans s rfl))
  have hb : s.bank = b' := congrArg State.bank heq
  have hr : r = r' := by simpa using congrArg State.sent heq
  subst hb hr
  exact ⟨r, rfl, rfl, hans _ rfl⟩

end Sys2Proof.Machine

namespace Sys2Proof.Proofs

open Sys2Proof.Machine

/-- Settles O58: the second write writes what stands there, and the second read reads what the first did. -/
theorem loadAndSetAreIdempotent : Obligations.LoadAndSetAreIdempotent := by
  constructor
  · rintro i s t (⟨v, rfl⟩ | ⟨id, v, rfl⟩) h
    · exact exec_scbLoad_again h
    · exact exec_scbSet_again h
  · rintro i s t (rfl | rfl | rfl | ⟨id, rfl | rfl⟩) h
    all_goals exact exec_reader_again rfl h nofun nofun nofun

end Sys2Proof.Proofs

/-! ### Counting up to saturation (R164 to R167, R179) -/

namespace Sys2Proof.Machine

/-- A number of at most 1023 as the whole BANK is counter 0. -/
theorem slot_zero_ofNat {n : Nat} (h : n ≤ 1023) : slot (BitVec.ofNat 254 n) 0 = n := by
  rw [slot, bank_ofNat_toNat (by omega)]
  omega

/-- A number of at most 1023 as the whole BANK leaves every counter above 0 at 0. -/
theorem slot_ofNat_of_pos {n i : Nat} (h : n ≤ 1023) (hi : 1 ≤ i) : slot (BitVec.ofNat 254 n) i = 0 := by
  have hpow : 2 ^ 10 ≤ 2 ^ (10 * i) := Nat.pow_le_pow_right (by decide) (by omega)
  rw [slot, bank_ofNat_toNat (by omega), Nat.div_eq_of_lt (by omega)]

/-- With counter 0 alone above 0, the total is that counter (R166). -/
theorem totalCount_ofNat {n : Nat} (h : n ≤ 1023) : totalCount (BitVec.ofNat 254 n) = n := by
  have hrest : ((List.range 24).map fun i => slot (BitVec.ofNat 254 n) (i + 1)).sum = 0 :=
    List.sum_eq_zero (by simp [slot_ofNat_of_pos h])
  rw [totalCount, Config.numCounters, List.range_succ_eq_map, List.map_cons, List.sum_cons, List.map_map,
    slot_zero_ofNat h]
  exact congrArg (n + ·) hrest

/-- With counter 0 alone above 0, the maximum is that counter, at index 0 (R167). -/
theorem findMax_ofNat {n : Nat} (h : n ≤ 1023) : findMax (BitVec.ofNat 254 n) = (0, n) := by
  refine findMax_eq (Nat.zero_le 24) (slot_zero_ofNat h).symm (fun i _ => ?_) fun i hi => absurd hi (Nat.not_lt_zero i)
  rcases Nat.eq_zero_or_pos i with rfl | hi
  · exact (slot_zero_ofNat h).le
  · exact slot_ofNat_of_pos h hi ▸ Nat.zero_le n

/-- SCB.INC 0 counts a BANK below 1023 up by one (R164). -/
theorem exec_scbInc_zero {n : Nat} (h : n < 1023) {s : State} (hs : s.bank = BitVec.ofNat 254 n) :
    exec (.scbInc 0) s = respondOK [] (s.writeBank (BitVec.ofNat 254 (n + 1))) := by
  have hslot : slot s.bank 0 = n := hs ▸ slot_zero_ofNat h.le
  have hlt : slot s.bank 0 < 1023 := hslot ▸ h
  have hnext : writeSlot s.bank 0 (slot s.bank 0 + 1) = BitVec.ofNat 254 (n + 1) := by
    apply BitVec.eq_of_toNat_eq
    rw [writeSlot_succ_toNat s.bank (Nat.zero_le 24) hlt, hs, bank_ofNat_toNat (by omega),
      bank_ofNat_toNat (by omega), Nat.mul_zero, pow_zero]
  exact (exec_scbInc_of_lt (id := 0) s (Nat.zero_le 24) hlt).trans (by rw [← hnext]; rfl)

/-- `n` SCB.INC 0 packets count BANK up from `k` to `k + n`, each answered OK, and what comes after them stays on the
port (R179). -/
theorem run_scbInc_zero (n : Nat) {k : Nat} (h : k + n ≤ 1023) (rest : List Input) (sent : List Packet) :
    core.run n { bank := BitVec.ofNat 254 k, port := List.replicate n (.packet (encode (.scbInc 0))) ++ rest
                 sent := sent } =
      .next { bank := BitVec.ofNat 254 (k + n), port := rest
              sent := sent ++ List.replicate n [0x00#8, 0x00#8] } := by
  induction n generalizing k sent with
  | zero =>
    rw [List.replicate_zero, List.replicate_zero, List.append_nil]
    rfl
  | succ n ih =>
    rw [List.replicate_succ, List.cons_append,
      run_succ_of_step ((step_of_decode_ok rfl (decode_encode rfl)).trans (exec_scbInc_zero (by omega) rfl))]
    refine (ih (by omega) (sent ++ [[0x00#8, 0x00#8]])).trans ?_
    rw [Nat.add_right_comm, List.append_assoc, List.replicate_succ, List.singleton_append]
    rfl

end Sys2Proof.Machine

namespace Sys2Proof.Proofs

open Sys2Proof.Machine

/-- Settles O60: the increments of counter 0 count BANK up to 1023, and there counter 0 is full and alone. -/
theorem saturationOfCounterZero : Obligations.SaturationOfCounterZero := by
  intro s hs
  refine ⟨fun n hn => ?_, fun t ht => ?_⟩
  · have hrun := run_scbInc_zero n (k := 0) (by omega) s.port s.sent
    rw [Nat.zero_add] at hrun
    rw [hs]
    exact hrun
  · have hbank : t.bank = BitVec.ofNat 254 1023 := ht
    have hfull : slot t.bank (0 : Int256).toNat = 1023 := hbank ▸ slot_zero_ofNat (le_refl 1023)
    refine ⟨exec_scbInc_of_full t (Nat.zero_le 24) hfull, ?_, fun id h1 h24 => ?_, ?_, ?_⟩
    · rw [exec_scbIsFull, hfull]
      rfl
    · rw [getCounter_eq, if_neg h24.not_gt, hbank, slot_ofNat_of_pos (le_refl 1023) h1]
    · rw [hbank, totalCount_ofNat (le_refl 1023)]
    · rw [hbank, findMax_ofNat (le_refl 1023)]

end Sys2Proof.Proofs

/-! PROOFS. The statements of 60_exceptions.md: an error changes nothing and ends with its command. -/

/-! ### The step on a packet that is answered by an error (R199) -/

namespace Sys2Proof.Machine

/-- A packet is taken and answered by an error, with nothing written, or by an OK response, after a write of BANK (of
the value it has, for a command that writes none): a command ends in one of the two (R71, R196), and what is no command
in the error ILLEGAL (R194). -/
theorem step_raises_or_respondsOK {s : State} {p : Packet} {rest : List Input} (hp : s.port = .packet p :: rest) :
    (∃ e : Error, step s = raise e (s.took rest)) ∨
      ∃ (b : Bank) (payload : Bytes), step s = respondOK payload ((s.took rest).writeBank b) := by
  cases hd : decode p with
  | ok i =>
    rw [step_of_decode_ok hp hd]
    rcases exec_isAnswer (decode_wellFormed hd) (s.took rest) with ⟨e, _, h⟩ | ⟨b, payload, _, h⟩
    · exact .inl ⟨e, h⟩
    · exact .inr ⟨b, payload, h⟩
  | error why => exact .inl ⟨.illegal why, step_of_decode_error hp hd⟩

/-- A step whose response does not begin with the OK status has raised an error: it has taken the packet, given the
error's response, and done nothing else (R199). -/
theorem step_of_failed {s t : State} {p : Packet} {rest : List Input} {r : Packet}
    (hp : s.port = .packet p :: rest) (h : step s = .next t) (hsent : t.sent = s.sent ++ [r])
    (hr : r.head? ≠ some 0x00#8) : ∃ e : Error, r = errorResponse e ∧ t = (s.took rest).give r := by
  rcases step_raises_or_respondsOK hp with ⟨e, he⟩ | ⟨b, payload, hok⟩
  · have ht : t = (s.took rest).give (errorResponse e) := raise_spec (he.symm.trans h)
    obtain rfl : errorResponse e = r := by simpa [ht] using hsent
    exact ⟨e, rfl, ht⟩
  · have ht : t = ((s.took rest).writeBank b).give (okResponse payload) := respondOK_spec (hok.symm.trans h)
    obtain rfl : okResponse payload = r := by simpa [ht] using hsent
    exact absurd rfl hr

end Sys2Proof.Machine

namespace Sys2Proof.Proofs

open Sys2Proof.Machine

/-- Settles O16: only a raised error answers without the OK status, and raising writes nothing but the response. -/
theorem errorsChangeNothing : Obligations.ErrorsChangeNothing := by
  intro s t p rest r hp h hsent hr
  obtain ⟨e, rfl, rfl⟩ := step_of_failed hp h hsent hr
  exact ⟨rfl, errorResponse_length e, e, rfl⟩

/-- Settles O17: the failed packet leaves BANK (R199), and BANK is all that the answer to the next one depends on
(R38). -/
theorem errorsAreLocal : Obligations.ErrorsAreLocal := by
  intro s t u p q rest r hp h hsent hr hu
  obtain ⟨_, _, rfl⟩ := step_of_failed hp h hsent hr
  obtain ⟨b', r', hans⟩ := equalBankEqualAnswer q s.bank
  have hafter := hans ((s.took (.packet q :: rest)).give r) rest rfl rfl
  have halone := hans (s.took (.packet q :: rest)) rest rfl rfl
  obtain rfl := Host.Outcome.next.inj (hafter.symm.trans hu)
  exact ⟨_, r', halone, rfl, rfl, rfl, List.append_assoc s.sent [r] [r']⟩

end Sys2Proof.Proofs

/-! PROOFS. The statements of 70_reset_and_hazards.md: what reset leaves, and what it does to the command it falls
into. -/

/-! ### The step on a reset (R215, R216) -/

namespace Sys2Proof.Machine

/-- A state that has answered nothing has the invariant of the responses. -/
theorem State.inv_of_sent_nil {s : State} (h : s.sent = []) : s.Inv := by
  intro r hr
  rw [h] at hr
  exact absurd hr List.not_mem_nil

/-- Reset between commands is taken off the port and clears the block (R215). -/
theorem step_of_reset {s : State} {rest : List Input} (hp : s.port = .reset :: rest) :
    step s = .next (s.took rest).resetBlock := by
  rw [step, hp]

/-- A command packet that reset falls into is taken off the port, not executed, and the block is cleared (R216). -/
theorem step_of_resetDuring {s : State} {p : Packet} {rest : List Input} (hp : s.port = .resetDuring p :: rest) :
    step s = .next (s.took rest).resetBlock := by
  rw [step, hp]

/-- A reset block that has taken its input, field by field: BANK 0, the rest of the port, the responses it had. -/
theorem took_resetBlock (s : State) (rest : List Input) :
    (s.took rest).resetBlock = { bank := 0, port := rest, sent := s.sent } := rfl

end Sys2Proof.Machine

namespace Sys2Proof.Proofs

open Sys2Proof.Machine

/-- Settles O20: no response is pending at reset. -/
theorem responsesLegalAtReset : Obligations.ResponsesLegalAtReset :=
  State.inv_of_sent_nil rfl

/-- Settles O22: either reset ends in the same cleared block, and neither step reaches an answer. -/
theorem resetAbandonsTheCommand : Obligations.ResetAbandonsTheCommand := by
  intro s rest
  rw [← took_resetBlock s rest]
  exact ⟨step_of_reset, fun _ => step_of_resetDuring⟩

end Sys2Proof.Proofs

/-! PROOFS. The last statements of 40_hash_splitter.md and 70_reset_and_hazards.md: the message HS.SPLIT has no meaning
for, the message schedule, the bit functions, and the empty port. -/

/-! ### A message beyond the trailer (R91, R104) -/

namespace Sys2Proof.Machine

/-- HS.SPLIT of a message whose bit length does not fit the trailer is refused (R91). -/
theorem exec_hsSplit_of_ge {msg : Bytes} (h : Config.trailerLimit ≤ msg.length) (s : State) :
    exec (.hsSplit msg) s = .refused .beyondTrailer :=
  if_neg (Nat.not_lt.mpr h)

/-! ### The words of the schedule (R93, R98) -/

/-- Four bytes at most fold to a number that a word holds (R15, R93). -/
theorem wordAt_toNat (s : Bytes) (i : Nat) : (wordAt s i).toNat = fold ((s.drop (4 * i)).take 4) := by
  have hslice : slice s (4 * i) (4 * i + 4) = (s.drop (4 * i)).take 4 := by
    rw [slice, List.drop_take, Nat.add_sub_cancel_left]
  have hlt : fold ((s.drop (4 * i)).take 4) < 2 ^ 32 :=
    calc fold ((s.drop (4 * i)).take 4) < 256 ^ ((s.drop (4 * i)).take 4).length := fold_lt _
      _ ≤ 256 ^ 4 := Nat.pow_le_pow_right (by decide) (List.length_take_le _ _)
      _ = 2 ^ 32 := by norm_num
  rw [wordAt, hslice, BitVec.toNat_ofNat, Nat.mod_eq_of_lt hlt]

@[simp] theorem schedule_length (block : Bytes) : (schedule block).length = 64 := by
  rw [schedule, extendSchedule_length, blockWords_length]

/-- The first 16 words of the schedule are the block's own (R93, R98). -/
theorem schedule_getD_of_lt (block : Bytes) {t : Nat} (h : t < 16) : (schedule block).getD t 0 = wordAt block t := by
  rw [schedule, extendSchedule_getD_lt _ _ (by rwa [blockWords_length])]
  simp [blockWords, h]

/-- The later words of the schedule (R98). -/
theorem schedule_getD_of_ge (block : Bytes) {t : Nat} (h : 16 ≤ t) (ht : t ≤ 63) : (schedule block).getD t 0 =
    ssig1 ((schedule block).getD (t - 2) 0) + (schedule block).getD (t - 7) 0 +
      ssig0 ((schedule block).getD (t - 15) 0) + (schedule block).getD (t - 16) 0 := by
  have hlen := blockWords_length block
  exact extendSchedule_getD 48 (blockWords block) (by omega) (by omega) (by omega)

/-! ### The bit functions (R96, R97) -/

/-- `Ch` takes its bit from `y` where `x` has a 1, and from `z` where it has a 0, also beyond the word (R96). -/
theorem ch_getLsbD (x y z : Word) (i : Nat) :
    (ch x y z).getLsbD i = if x.getLsbD i then y.getLsbD i else z.getLsbD i := by
  rw [ch, BitVec.getLsbD_xor, BitVec.getLsbD_and, BitVec.getLsbD_and, BitVec.getLsbD_not]
  cases hx : x.getLsbD i with
  | true => simp
  | false =>
    by_cases hi : i < 32
    · simp [hi]
    · simp [hi, BitVec.getLsbD_of_ge z i (by omega)]

/-- Of three bits at least two are 1 exactly when an odd number of the three pairs is 1 and 1. -/
theorem xor_and_pairs_eq_majority (a b c : Bool) :
    ((a && b) ^^ (a && c) ^^ (b && c)) = decide (2 ≤ a.toNat + b.toNat + c.toNat) := by
  revert a b c
  decide

/-- Each bit of `Maj` is the majority of the three bits there (R96). -/
theorem maj_getLsbD (x y z : Word) (i : Nat) : (maj x y z).getLsbD i =
    decide (2 ≤ (x.getLsbD i).toNat + (y.getLsbD i).toNat + (z.getLsbD i).toNat) := by
  simp only [maj, BitVec.getLsbD_xor, BitVec.getLsbD_and, xor_and_pairs_eq_majority]

/-- The exclusive OR of three rotations, bit by bit: the shape of `BSIG0` and `BSIG1` (R97). -/
theorem rotr_xor_rotr_xor_rotr_getLsbD (x : Word) {n m k i : Nat} (hn : 0 < n ∧ n < 32) (hm : 0 < m ∧ m < 32)
    (hk : 0 < k ∧ k < 32) (hi : i < 32) : (rotr x n ^^^ rotr x m ^^^ rotr x k).getLsbD i =
      (x.getLsbD ((i + n) % 32) ^^ x.getLsbD ((i + m) % 32) ^^ x.getLsbD ((i + k) % 32)) := by
  rw [BitVec.getLsbD_xor, BitVec.getLsbD_xor, rotr_getLsbD x hn.1 hn.2 hi, rotr_getLsbD x hm.1 hm.2 hi,
    rotr_getLsbD x hk.1 hk.2 hi]

/-- The exclusive OR of two rotations and a shift, bit by bit: the shape of `SSIG0` and `SSIG1` (R97). -/
theorem rotr_xor_rotr_xor_shr_getLsbD (x : Word) {n m i : Nat} (k : Nat) (hn : 0 < n ∧ n < 32) (hm : 0 < m ∧ m < 32)
    (hi : i < 32) : (rotr x n ^^^ rotr x m ^^^ shr x k).getLsbD i =
      (x.getLsbD ((i + n) % 32) ^^ x.getLsbD ((i + m) % 32) ^^ (decide (i + k < 32) && x.getLsbD (i + k))) := by
  rw [BitVec.getLsbD_xor, BitVec.getLsbD_xor, rotr_getLsbD x hn.1 hn.2 hi, rotr_getLsbD x hm.1 hm.2 hi,
    shr_getLsbD]

/-! ### The step on an empty port (R217) -/

/-- With no input to take the block waits (R217). -/
theorem step_of_port_nil {s : State} (hp : s.port = []) : step s = .next s := by
  rw [step, hp]

end Sys2Proof.Machine

namespace Sys2Proof.Proofs

open Sys2Proof.Machine

/-- Settles O23, by the one branch of the step that takes no input. -/
theorem emptyPortWaits : Obligations.EmptyPortWaits :=
  fun _ => step_of_port_nil

/-- Settles O25: what decodes is well-formed, and a well-formed message is short enough for the trailer. -/
theorem hsSplitBeyondTrailer : Obligations.HsSplitBeyondTrailer := by
  intro msg s hlen
  refine ⟨exec_hsSplit_of_ge hlen s, fun p hp => ?_⟩
  have hlt : msg.length < Config.trailerLimit := length_lt_of_wellFormed (decode_wellFormed hp)
  exact Nat.not_lt.mpr hlen hlt

/-- Settles O28: the block's own words, and behind them the words of the recurrence. -/
theorem scheduleRecurrence : Obligations.ScheduleRecurrence := by
  intro block
  refine ⟨schedule_length block, fun t ht => ?_, fun t h16 h63 => schedule_getD_of_ge block h16 h63⟩
  rw [schedule_getD_of_lt block ht, wordAt_toNat]

/-- Settles O30: `Ch` and `Maj` act on each bit alone, and the diffusion functions have two shapes. -/
theorem chooseAndMajority : Obligations.ChooseAndMajority := by
  intro x y z i
  refine ⟨ch_getLsbD x y z i, maj_getLsbD x y z i, fun hi => ⟨?bsig0, ?bsig1, ?ssig0, ?ssig1⟩⟩
  case bsig0 => exact rotr_xor_rotr_xor_rotr_getLsbD x (by decide) (by decide) (by decide) hi
  case bsig1 => exact rotr_xor_rotr_xor_rotr_getLsbD x (by decide) (by decide) (by decide) hi
  case ssig0 => exact rotr_xor_rotr_xor_shr_getLsbD x 3 (by decide) (by decide) hi
  case ssig1 => exact rotr_xor_rotr_xor_shr_getLsbD x 10 (by decide) (by decide) hi

end Sys2Proof.Proofs
